-- ==== Sys2Proof/Word.lean ====
section
/-! DEFINITION. The value kinds of spec/00_scope.md rules R5 and R6. -/

namespace Sys2Proof

/-- `u8`: one instruction byte, or one canvas cell (R6, R54). -/
abbrev Byte := BitVec 8

/-- A 32-bit register. `u32` and `i32` are the same 32 bits read in two ways (R6): `toNat` reads the unsigned value and
`toInt` the two's-complement one, so `i32(u)` and `u32(i)` are the identity on a `Word`. -/
abbrev Word := BitVec 32

/-- A 6-bit operand (R80): `toNat` reads it as `u6`, 0..63, and `toInt` as `s6`, −32..31. -/
abbrev U6 := BitVec 6

end Sys2Proof
end

