-- ==== Sys2Proof/Config.lean ====
section
/-! DEFINITION. What is fixed for a machine: the constants and the OPEN parameters of spec/00_scope.md section 4 and rule R4. -/

namespace Sys2Proof.Config

/-- `PROG_MAX_LEN` = 2^31 − 1: the longest program `LoadProgram` takes (R52). -/
def progMaxLen : Nat := 2147483647

/-- The OPEN parameters of R4. R38 makes them parameters of the step: `State` carries one value of this type, which no
instruction and no host command changes, so a statement about every state holds for every value of every parameter. -/
structure Params where
  /-- `CANVAS_FILL`: the byte of a cell that growth created and nothing drew (R56). -/
  canvasFill : Byte
  /-- `CANVAS_MAX_W`: the most columns the canvas storage holds (R57). -/
  canvasMaxW : Nat
  /-- `CANVAS_MAX_H`: the most rows the canvas storage holds (R57). -/
  canvasMaxH : Nat
  /-- `FRAME_RESET_COLOUR`: whether a frame-step start zeroes `colour` (R174). -/
  frameResetColour : Bool
deriving DecidableEq, Repr

/-- The reference values of spec/00_scope.md section 4. That section gives `CANVAS_FILL` no reference value: 0 is the
value its test vectors use (log entry 1, DESIGN CHOICE). -/
def reference : Params :=
  { canvasFill := 0, canvasMaxW := 2147483647, canvasMaxH := 2147483647, frameResetColour := false }

end Sys2Proof.Config
end

