-- ==== Sys2Proof/Syntax.lean ====
section
/-! DEFINITION. The instructions: one constructor for each of the 17 rows of spec/opcode_table.json. -/

namespace Sys2Proof

/-- An instruction of SK8. The operand of a raw tool row is the whole 6-bit tool code (R83); which codes a row has is
checked by `Instr.wf`. -/
inductive Instr where
  | dx (s : U6)          -- DX, format M, operand read as s6 (R130)
  | dy (s : U6)          -- DY, format M, operand read as s6 (R131)
  | toolNone             -- TOOL_NONE, code 0 (R141)
  | toolLine             -- TOOL_LINE, code 1 (R142)
  | toolBlock            -- TOOL_BLOCK, code 2 (R143)
  | toolColour           -- TOOL_COLOUR, code 3 (R144)
  | toolTargetX          -- TOOL_TARGETX, code 4 (R145)
  | toolTargetY          -- TOOL_TARGETY, code 5 (R146)
  | toolShow             -- TOOL_SHOW, code 6 (R147)
  | toolPause            -- TOOL_PAUSE, code 7 (R148)
  | toolNextFrame        -- TOOL_NEXTFRAME, code 8 (R149)
  | tool9                -- TOOL_9, the reserved code (R150)
  | toolRaw10 (t : U6)   -- TOOL_raw_10..11 (R151)
  | toolRaw12 (t : U6)   -- TOOL_raw_12..15 (R151)
  | toolRaw16 (t : U6)   -- TOOL_raw_16..31 (R151)
  | toolRaw32 (t : U6)   -- TOOL_raw_32..63 (R151)
  | data (g : U6)        -- DATA, format D, operand read as u6 (R160)
deriving DecidableEq, Repr

end Sys2Proof
end

