-- ==== Sys2Proof/WellFormed.lean ====
section
/-! DEFINITION. Which instructions and which programs the spec admits. -/

namespace Sys2Proof

/-- An instruction its opcode-table row has: a raw tool row admits exactly its own codes (spec/opcode_table.json, R151);
every 6-bit value is an operand of DX, DY and DATA (R82). -/
def Instr.wf : Instr → Bool
  | .dx _ => true
  | .dy _ => true
  | .toolNone => true
  | .toolLine => true
  | .toolBlock => true
  | .toolColour => true
  | .toolTargetX => true
  | .toolTargetY => true
  | .toolShow => true
  | .toolPause => true
  | .toolNextFrame => true
  | .tool9 => true
  | .toolRaw10 t => decide (10 ≤ t.toNat) && decide (t.toNat ≤ 11)
  | .toolRaw12 t => decide (12 ≤ t.toNat) && decide (t.toNat ≤ 15)
  | .toolRaw16 t => decide (16 ≤ t.toNat) && decide (t.toNat ≤ 31)
  | .toolRaw32 t => decide (32 ≤ t.toNat) && decide (t.toNat ≤ 63)
  | .data _ => true

/-- A program `LoadProgram` takes: any bytes at all (R85, no byte is illegal), at most `PROG_MAX_LEN` of them (R52). -/
def programWf (bytes : List Byte) : Bool := decide (bytes.length ≤ Config.progMaxLen)

end Sys2Proof
end

