-- ==== Sys2Proof/Decode.lean ====
section
/-! DEFINITION. The decoder of spec/41_decoder.md (R120 to R126) and, after it, the encoder of one instruction, written from
the encoding tables of spec/30_encoding.md (R80 to R83). -/

namespace Sys2Proof

/-- `b[7:6]`, the opcode field (R80, R120). -/
def opField (b : Byte) : BitVec 2 := b.extractLsb' 6 2

/-- `b[5:0]`, the operand field `imm6` (R80, R120). -/
def immField (b : Byte) : U6 := b.extractLsb' 0 6

/-- The TOOL instruction of a selector code: the table of R83, with the raw codes split as spec/opcode_table.json splits
them. -/
def decodeTool (t : U6) : Instr :=
  if t = 0 then .toolNone
  else if t = 1 then .toolLine
  else if t = 2 then .toolBlock
  else if t = 3 then .toolColour
  else if t = 4 then .toolTargetX
  else if t = 5 then .toolTargetY
  else if t = 6 then .toolShow
  else if t = 7 then .toolPause
  else if t = 8 then .toolNextFrame
  else if t = 9 then .tool9
  else if t.toNat ≤ 11 then .toolRaw10 t
  else if t.toNat ≤ 15 then .toolRaw12 t
  else if t.toNat ≤ 31 then .toolRaw16 t
  else .toolRaw32 t

/-- The instruction a byte is: total on 0x00..0xFF, and a function of the byte alone (R123, R126). -/
def decode (b : Byte) : Instr :=
  if opField b = 0b00#2 then .dx (immField b)
  else if opField b = 0b01#2 then .dy (immField b)
  else if opField b = 0b10#2 then decodeTool (immField b)
  else .data (immField b)

/-- Why a byte sequence has no first instruction. -/
inductive DecodeReject where
  /-- There is no byte. No byte is ever rejected (R85, R123). -/
  | endOfStream
deriving DecidableEq, Repr

/-- The first instruction of a byte sequence and the bytes after it: every instruction is exactly one byte (R88). -/
def decodeBytes : List Byte → Except DecodeReject (Instr × List Byte)
  | [] => .error .endOfStream
  | b :: rest => .ok (decode b, rest)

/-- The instructions of a whole byte stream, in order (R51, R61). -/
def decodeAll : List Byte → List Instr
  | [] => []
  | b :: rest => decode b :: decodeAll rest

/-- The instruction read from `nbits` bits numbered as spec/opcode_table.json numbers them: an instruction is the one byte
made of bits 7..0 (R80, R88). -/
def decodeTableWord (nbits w : Nat) : Option Instr :=
  match decodeBytes [BitVec.ofNat 8 (w % 2 ^ nbits)] with
  | .ok (i, _) => some i
  | .error _ => none

/-! ### The encoder of one instruction -/

/-- The byte with opcode `op` and operand `imm` (R80). -/
def assembleByte (op : BitVec 2) (imm : U6) : Byte := op ++ imm

/-- The byte of an instruction (R81 for the opcodes, R83 for the tool codes). -/
def encode : Instr → Byte
  | .dx s => assembleByte 0b00 s
  | .dy s => assembleByte 0b01 s
  | .toolNone => assembleByte 0b10 0
  | .toolLine => assembleByte 0b10 1
  | .toolBlock => assembleByte 0b10 2
  | .toolColour => assembleByte 0b10 3
  | .toolTargetX => assembleByte 0b10 4
  | .toolTargetY => assembleByte 0b10 5
  | .toolShow => assembleByte 0b10 6
  | .toolPause => assembleByte 0b10 7
  | .toolNextFrame => assembleByte 0b10 8
  | .tool9 => assembleByte 0b10 9
  | .toolRaw10 t => assembleByte 0b10 t
  | .toolRaw12 t => assembleByte 0b10 t
  | .toolRaw16 t => assembleByte 0b10 t
  | .toolRaw32 t => assembleByte 0b10 t
  | .data g => assembleByte 0b11 g

/-- The bytes of an instruction sequence, concatenated in order with nothing added (R95). -/
def encodeAll : List Instr → List Byte
  | [] => []
  | i :: rest => encode i :: encodeAll rest

/-! ### The opcode table as match and mask -/

/-- One row of spec/opcode_table.json: a byte `b` is the row's when `b &&& mask = pattern`. -/
structure OpcodeRow where
  pattern : Byte
  mask : Byte
deriving DecidableEq, Repr

/-- The `match` and `mask` of an instruction's row, as spec/opcode_table.json prints them. -/
def opcodeRow : Instr → OpcodeRow
  | .dx _ => ⟨0x00, 0xC0⟩
  | .dy _ => ⟨0x40, 0xC0⟩
  | .toolNone => ⟨0x80, 0xFF⟩
  | .toolLine => ⟨0x81, 0xFF⟩
  | .toolBlock => ⟨0x82, 0xFF⟩
  | .toolColour => ⟨0x83, 0xFF⟩
  | .toolTargetX => ⟨0x84, 0xFF⟩
  | .toolTargetY => ⟨0x85, 0xFF⟩
  | .toolShow => ⟨0x86, 0xFF⟩
  | .toolPause => ⟨0x87, 0xFF⟩
  | .toolNextFrame => ⟨0x88, 0xFF⟩
  | .tool9 => ⟨0x89, 0xFF⟩
  | .toolRaw10 _ => ⟨0x8A, 0xFE⟩
  | .toolRaw12 _ => ⟨0x8C, 0xFC⟩
  | .toolRaw16 _ => ⟨0x90, 0xF0⟩
  | .toolRaw32 _ => ⟨0xA0, 0xE0⟩
  | .data _ => ⟨0xC0, 0xC0⟩

end Sys2Proof
end

