-- ==== Sys2Proof/Machine/State.lean ====
section
/-! DEFINITION. The state of spec/10_state.md and spec/20_memory.md as plain data, the reasons a step can stop, and the
state after reset (spec/70_reset_and_hazards.md R230). -/

namespace Sys2Proof.Machine

/-- The invocation status (R33). -/
inductive Run where
  | idle
  | full    -- a full-stream decode runs
  | frame   -- a frame-step runs
deriving DecidableEq, Repr

/-- A display event (the table of R60). -/
inductive Event where
  | setColour (c : Word)
  | drawFilledRect (x y wd ht c : Word)
  | drawLine (x1 y1 x2 y2 : Word)
  | showCanvas             -- `Show`
  | delay (ms : Word)
deriving DecidableEq, Repr

/-- Why an instruction stops. -/
inductive Fault where
  /-- `CanvasCapacityFault` (R56, R57, R201): raised by DY with `tool = BLOCK` when `tx > CANVAS_MAX_W` or
  `ty > CANVAS_MAX_H`; it records the DY's offset and the `tx`, `ty` it would grow to. `step` does not stop on it: it ends
  the invocation as R201 says. Safe: the spec names the fault and what it leaves. -/
  | canvasCapacity (pc tx ty : Word)
deriving DecidableEq, Repr

/-- Why an input is turned away. -/
inductive Refusal where
  /-- Raised by `exec` alone, for an instruction that has no meaning yet; safe. No arm of `exec` raises it. -/
  | notModelled (mnemonic : String)
  /-- `refuse OperandRange` (R114, R202): the encoder's answer to an input outside its domain, raised by the encoder's
  operations and given back to the host in a reply; safe: the spec names it and says it has no effect. -/
  | operandRange
  /-- Raised by `LoadProgram` for more than `PROG_MAX_LEN` bytes, and given back to the host in a reply (R52, R214, and
  item I10 of spec/93_implementation_defined.md: the command has no effect); safe. -/
  | programTooLong
deriving DecidableEq, Repr

/-- How an invocation ended (R201): by its stop condition, or by the fault with this code, offset, `tx` and `ty`. -/
inductive Ending where
  | normal
  | faulted (code : Nat) (pc tx ty : Word)
deriving DecidableEq, Repr

/-- A Rectangle, the encoder's input (R100). The colour is an integer because R114 says what a colour outside 0..255
does; the corners are `i32`. -/
structure Rect where
  colour : Int
  x1 : Word
  y1 : Word
  x2 : Word
  y2 : Word
deriving DecidableEq, Repr

/-- A host command (the table of R214). -/
inductive Command where
  | reset
  | loadProgram (bytes : List Byte)
  | startFull
  | startFrame
  | readState
  | readCanvas
  | takeEvents
  | encode (rects : List Rect)
deriving DecidableEq, Repr

/-- What `ReadState` returns: the register file of R20, `pc` and `run` (R214). -/
structure RegFile where
  x : Word
  y : Word
  tx : Word
  ty : Word
  w : Word
  h : Word
  tool : U6
  colour : Word
  data : Word
  frameStart : Word
  frameEnded : Bool
  pc : Word
  run : Run
deriving DecidableEq, Repr

/-- What a command returned (R214). -/
inductive Reply where
  | registers (regs : RegFile)         -- ReadState
  | raster (bytes : List Byte)         -- ReadCanvas, serialised by R58
  | eventList (events : List Event)    -- TakeEvents
  | encoded (bytes : List Byte)        -- Encode: the whole buffer `B`
  | refused (reason : Refusal)
deriving DecidableEq, Repr

/-- Cells as (address, byte) pairs in one canonical form (`Memory.wf`): addresses strictly rising, and no byte equal to
the fill byte, which is what an unlisted address reads as. -/
abbrev Memory := List Host.Cell

/-- Everything the spec gives the machine. `w` and `h` bound the canvas; the length of `program` is `L`. -/
structure State where
  x : Word
  y : Word
  tx : Word
  ty : Word
  w : Word
  h : Word
  tool : U6
  colour : Word
  data : Word
  frameStart : Word
  frameEnded : Bool
  pc : Word
  run : Run
  /-- The canvas `C` (R34, R54): cell (`col`, `row`) stands at `cellAddr col row`. -/
  canvas : Memory
  /-- Program memory `P` (R51): the byte at offset `a` is the list's entry `a`. -/
  program : List Byte
  /-- The encoder's output buffer `B` (R59). -/
  buffer : List Byte
  /-- The display-event output `E`, oldest first (R60). -/
  events : List Event
  /-- How the last invocation ended; none before the first and while one runs (R201). -/
  outcome : Option Ending
  /-- The OPEN parameters (R4, R38): nothing changes them. -/
  params : Config.Params
  /-- The host's pending commands, next first (R214). The model's own field. -/
  commands : List Command
  /-- What the commands returned, oldest first (R214). The model's own field. -/
  replies : List Reply
deriving DecidableEq, Repr

/-- The machine after power-on reset (R230, R231), before any `LoadProgram` (R233), with the reference parameters. -/
def State.reset : State :=
  { x := 0, y := 0, tx := 0, ty := 0, w := 0, h := 0, tool := 0, colour := 0, data := 0,
    frameStart := 0, frameEnded := false, pc := 0, run := .idle, canvas := [], program := [],
    buffer := [], events := [], outcome := none, params := Config.reference, commands := [], replies := [] }

end Sys2Proof.Machine
end

