-- ==== Sys2Proof/Machine/Encoder.lean ====
section
/-! DEFINITION. The encoder of spec/40_encoder.md (R100 to R117): values, moves, tool selections, Rectangles and whole
Rectangle lists to bytes. Each operation answers the bytes it appends, or the refusal of R114. -/

namespace Sys2Proof.Machine

/-- `EncodeData(g)` (R103): `0xC0 | g`. -/
def encodeData (g : Nat) : Except Refusal Byte :=
  if g ≤ 63 then .ok (0xC0#8 ||| BitVec.ofNat 8 g) else .error .operandRange

/-- `EncodeTool(t)` (R104): `0x80 | t`. -/
def encodeTool (t : Nat) : Except Refusal Byte :=
  if t ≤ 63 then .ok (0x80#8 ||| BitVec.ofNat 8 t) else .error .operandRange

/-- `EncodeDX(d)` (R105): `0x00 | (u32(d) & 63)`. -/
def encodeDX (d : Word) : Except Refusal Byte :=
  if -32 ≤ d.toInt ∧ d.toInt ≤ 31 then .ok (0x00#8 ||| (d &&& 63).setWidth 8) else .error .operandRange

/-- `EncodeDY(d)` (R106): `0x40 | (u32(d) & 63)`. -/
def encodeDY (d : Word) : Except Refusal Byte :=
  if -32 ≤ d.toInt ∧ d.toInt ≤ 31 then .ok (0x40#8 ||| (d &&& 63).setWidth 8) else .error .operandRange

/-! ### Value loads -/

/-- `G[k] = (v >> (6*k)) & 63` (R101). -/
def valueGroup (v : Word) (k : Nat) : U6 := v.extractLsb' (6 * k) 6

/-- `first` of R101: the greatest `k` with `G[k] != 0`, or 0. -/
def firstGroup (v : Word) : Nat :=
  if valueGroup v 5 ≠ 0 then 5
  else if valueGroup v 4 ≠ 0 then 4
  else if valueGroup v 3 ≠ 0 then 3
  else if valueGroup v 2 ≠ 0 then 2
  else if valueGroup v 1 ≠ 0 then 1
  else 0

/-- The byte of one emitted group: `EncodeData(G[k])`, in range by its type (R103). -/
def groupByte (g : U6) : Byte := 0xC0#8 ||| g.setWidth 8

/-- The bytes of the groups `k` down to 0. -/
def groupsDown (v : Word) : Nat → List Byte
  | 0 => [groupByte (valueGroup v 0)]
  | k + 1 => groupByte (valueGroup v (k + 1)) :: groupsDown v k

/-- `EncodeValue(v)` (R101): most significant group first, leading zero groups omitted, at least one byte. -/
def encodeValue (v : Word) : List Byte := groupsDown v (firstGroup v)

/-- `bitlen(v)` (R102): the position of the highest set bit plus one, 0 for 0. -/
def bitLength (v : Word) : Nat := if v = 0 then 0 else Nat.log2 v.toNat + 1

/-- `n(v)` (R102): the length of a value load. -/
def valueLength (v : Word) : Nat := if v = 0 then 1 else (bitLength v + 5) / 6

/-- The directives that commit a loaded value: the three of R107, and PAUSE for `WAIT` (R92). -/
inductive Commit where
  | colour
  | targetX
  | targetY
  | pause
deriving DecidableEq, Repr

/-- `EncodeTool` of a committing directive (R83, R104). -/
def commitByte : Commit → Byte
  | .colour => 0x83
  | .targetX => 0x84
  | .targetY => 0x85
  | .pause => 0x87

/-- `EncodeLoadCommit(v, t)` (R107). -/
def encodeLoadCommit (v : Word) (t : Commit) : List Byte := encodeValue v ++ [commitByte t]

/-! ### Rectangles and programs -/

/-- The nine steps of R110 for a colour word and four corners. -/
def rectangleBytes (c x1 y1 x2 y2 : Word) : List Byte :=
  [0x80]
    ++ encodeLoadCommit c .colour
    ++ encodeLoadCommit x1 .targetX
    ++ encodeLoadCommit y1 .targetY
    ++ [0x40]
    ++ encodeLoadCommit x2 .targetX
    ++ encodeLoadCommit y2 .targetY
    ++ [0x82]
    ++ [0x40]

/-- `EncodeRectangle(r)` (R110): refused only for a colour outside 0..255 (R114); the Rectangle's invariant is not checked
(R100). -/
def encodeRectangle (r : Rect) : Except Refusal (List Byte) :=
  if 0 ≤ r.colour ∧ r.colour ≤ 255 then .ok (rectangleBytes (BitVec.ofInt 32 r.colour) r.x1 r.y1 r.x2 r.y2)
  else .error .operandRange

/-- `EncodeProgram(list)` (R112): the Rectangles' bytes in list order, nothing between them. One Rectangle outside the
domain refuses the whole list, and nothing is appended (R114). -/
def encodeProgram : List Rect → Except Refusal (List Byte)
  | [] => .ok []
  | r :: rest =>
    match encodeRectangle r with
    | .error e => .error e
    | .ok bytes =>
      match encodeProgram rest with
      | .error e => .error e
      | .ok more => .ok (bytes ++ more)

/-- `DRAWX d` (R94, R115): a relative move along X that draws is DX d, DY 0. -/
def encodeDrawX (d : Word) : Except Refusal (List Byte) :=
  match encodeDX d with
  | .error e => .error e
  | .ok b => .ok [b, 0x40]

end Sys2Proof.Machine
end

