-- ==== Sys2Proof/Machine/Flags.lean ====
section
/-! DEFINITION. The block's only flag, `frameEnded` (spec/10_state.md R32): no arithmetic instruction computes a flag. -/

namespace Sys2Proof.Machine

/-- `frameEnded <- true`: TOOL NEXTFRAME only (R149). -/
def raiseFrameEnded (s : State) : State := { s with frameEnded := true }

/-- `frameEnded <- false`: the start of every invocation (R171, R174). -/
def clearFrameEnded (s : State) : State := { s with frameEnded := false }

end Sys2Proof.Machine
end

