-- ==== Sys2Proof/Machine/Operands.lean ====
section
/-! DEFINITION. The operand forms and conversions of spec/00_scope.md R6 and R7, and canvas coordinates (R54). -/

namespace Sys2Proof.Machine

/-- `sext_32`: the operand of DX and DY, −32..31 (R7, R121). -/
def sext32 (v : U6) : Word := v.signExtend 32

/-- `zext_32`: the operand of TOOL and DATA, 0..63 (R7, R122). -/
def zext32 (v : U6) : Word := v.setWidth 32

/-- `max(a, b)`, compared as signed `i32` (R6). -/
def smax (a b : Word) : Word := if a.toInt ≤ b.toInt then b else a

/-- The integers `max(lo, 0) .. hi - 1`, rising: none when `hi ≤ max(lo, 0)` (the loop bounds of R132). -/
def clippedRange (lo hi : Word) : List Nat :=
  List.range' (max lo.toInt 0).toNat (hi.toInt - max lo.toInt 0).toNat

/-- The distance between two rows' addresses: more than any column number, since `w` is at most 2^31 − 1 (R25). -/
def canvasPitch : Nat := 2147483648

/-- Where cell (`col`, `row`) stands in `State.canvas`: rising addresses are row-major order (R54). -/
def cellAddr (col row : Nat) : Nat := row * canvasPitch + col

/-- The column of an address. -/
def cellCol (a : Nat) : Nat := a % canvasPitch

/-- The row of an address. -/
def cellRow (a : Nat) : Nat := a / canvasPitch

end Sys2Proof.Machine
end

