-- ==== Sys2Proof/Machine/Ops.lean ====
section
/-! DEFINITION. The operations the meanings share: cells, the canvas (spec/20_memory.md R54 to R57), the event output (R60),
the program memory (R51), the register updates several instructions have in common, and the end of a faulted invocation
(spec/60_exceptions.md R201). -/

namespace Sys2Proof.Machine

/-! ### Cells -/

/-- The byte at address `a`: `fill` where nothing is listed. -/
def Memory.read (fill : Byte) : Memory → Nat → Byte
  | [], _ => fill
  | (b, u) :: rest, a => if a = b then u else Memory.read fill rest a

/-- Lists `v` at `a`, before the first greater address. -/
def Memory.insert (a : Nat) (v : Byte) : Memory → Memory
  | [] => [(a, v)]
  | (b, u) :: rest => if a < b then (a, v) :: (b, u) :: rest else (b, u) :: Memory.insert a v rest

/-- The cells at the addresses that satisfy `p`; the others read as `fill` again. -/
def Memory.keep (p : Nat → Bool) (m : Memory) : Memory := m.filter (fun c => p c.1)

/-- Sets the byte at `a` to `v` and keeps the canonical form: writing `fill` removes the entry. -/
def Memory.write (fill : Byte) (m : Memory) (a : Nat) (v : Byte) : Memory :=
  if v = fill then Memory.keep (fun b => b != a) m
  else Memory.insert a v (Memory.keep (fun b => b != a) m)

/-- The canonical form: addresses strictly rising, and no byte equal to `fill`. -/
def Memory.wf (fill : Byte) : Memory → Bool
  | [] => true
  | (a, v) :: rest => decide (v ≠ fill) && rest.all (fun c => decide (a < c.1)) && Memory.wf fill rest

/-! ### The canvas -/

/-- Whether cell (`col`, `row`) exists within `w` columns and `h` rows: `col < w` and `row < h`, compared as `i32` (R54). -/
def inBounds (w h : Word) (col row : Nat) : Bool :=
  decide ((col : Int) < w.toInt) && decide ((row : Int) < h.toInt)

/-- The byte `C[row][col]`, or none where the canvas has no such cell (R54). -/
def readCell (s : State) (col row : Nat) : Option Byte :=
  if inBounds s.w s.h col row then some (Memory.read s.params.canvasFill s.canvas (cellAddr col row)) else none

/-- `CanvasWrite(col, row, v8)` (R55). -/
def canvasWrite (col row : Nat) (v : Byte) (s : State) : State :=
  { s with canvas := Memory.write s.params.canvasFill s.canvas (cellAddr col row) v }

/-- `CanvasGrow(nw, nh)` within the capacity (R56): the old cells stay, and every other cell of the new bounds holds
`CANVAS_FILL`, which is what an unlisted address reads as. -/
def canvasEnlarge (nw nh : Word) (s : State) : State :=
  { s with
    canvas := Memory.keep (fun a => inBounds s.w s.h (cellCol a) (cellRow a)) s.canvas
    w := smax s.w nw
    h := smax s.h nh }

/-- Whether a growth request passes the capacity: `nw > CANVAS_MAX_W` or `nh > CANVAS_MAX_H` (R56, R57). -/
def beyondCapacity (p : Config.Params) (nw nh : Word) : Bool :=
  decide ((p.canvasMaxW : Int) < nw.toInt) || decide ((p.canvasMaxH : Int) < nh.toInt)

/-- `CanvasGrow(nw, nh)` (R56): `raise CanvasCapacityFault(nw, nh)` beyond the capacity. -/
def canvasGrow (nw nh : Word) (s : State) : Except Fault State :=
  if beyondCapacity s.params nw nh then .error (.canvasCapacity s.pc nw nh) else .ok (canvasEnlarge nw nh s)

/-- One row of a filled box: the inner loop of R132. -/
def fillRow (v : Byte) (row : Nat) (cols : List Nat) (s : State) : State :=
  cols.foldl (fun st col => canvasWrite col row v st) s

/-- The cells of a filled box: the two loops of R132. -/
def fillBox (v : Byte) (rows cols : List Nat) (s : State) : State :=
  rows.foldl (fun st row => fillRow v row cols st) s

/-! ### The event output -/

/-- `Emit(ev)`: appends one event to `E` (R60). -/
def emit (ev : Event) (s : State) : State := { s with events := s.events ++ [ev] }

/-! ### Program memory and the program counter -/

/-- `Fetch(pc)`: the byte at offset `pc`, or none at end of stream, `pc ≥ L` (R51, R52). -/
def fetch (s : State) : Option Byte := s.program[s.pc.toNat]?

/-- `pc <- pc + 1`, the step's last action (R124). -/
def advancePc (s : State) : State := { s with pc := s.pc + 1 }

/-- The program with byte `b` at offset `a`, and zeros between its old end and `a`. -/
def placeByte (a : Nat) (b : Byte) (p : List Byte) : List Byte :=
  p.take a ++ List.replicate (a - p.length) 0 ++ b :: p.drop (a + 1)

/-! ### Register updates -/

/-- `data <- 0`: the last action of every TOOL (R140). -/
def clearData (s : State) : State := { s with data := 0 }

/-- What every tool code does (R140, "otherwise"; R141 to R143, R150, R151): `tool <- t; data <- 0`. -/
def selectTool (t : U6) (s : State) : State := clearData { s with tool := t }

/-- `x <- tx; y <- ty`: DY's position commit (R131). -/
def commitPosition (s : State) : State := { s with x := s.tx, y := s.ty }

/-! ### The fault -/

/-- The fault code table of R201. -/
def Fault.code : Fault → Nat
  | .canvasCapacity _ _ _ => 1

/-- The `Faulted(code, pc, tx, ty)` outcome a fault leaves (R201). -/
def Fault.ending (f : Fault) : Ending :=
  match f with
  | .canvasCapacity pc tx ty => .faulted (Fault.code f) pc tx ty

/-- Taking a fault: there is no trap entry (R207). The invocation ends with the fault as its outcome; no register, cell or
event changes, `pc` stays at the faulting byte, and the host may reset or start a new invocation (R201), for which `run` is
IDLE (log entry 6, DEDUCED). There is no return from a fault (R208). -/
def endFaulted (f : Fault) (s : State) : State := { s with run := .idle, outcome := some (Fault.ending f) }

end Sys2Proof.Machine
end

