-- ==== Sys2Proof/Machine/Data.lean ====
section
/-! DEFINITION. The accumulator load DATA (spec/44_data.md R160 to R162). -/

namespace Sys2Proof.Machine

/-- DATA (R160, R161): `data <- ((data << 6) | (g & 63)) mod 2^32`; the six top bits are lost. -/
def execData (g : U6) (s : State) : Host.Outcome State Fault Refusal :=
  .next { s with data := (s.data <<< 6) ||| (zext32 g &&& 63) }

end Sys2Proof.Machine
end

