-- ==== Sys2Proof/Machine/Motion.lean ====
section
/-! DEFINITION. The motion instructions DX and DY (spec/42_motion.md R130 to R134). -/

namespace Sys2Proof.Machine

/-- `BlockDraw` (R132): grow to the target, fill the clipped box with the low byte of `colour`, emit the rectangle. -/
def blockDraw (s : State) : Except Fault State :=
  match canvasGrow s.tx s.ty s with
  | .error f => .error f
  | .ok g =>
    .ok (emit (.drawFilledRect s.x s.y (s.tx - s.x) (s.ty - s.y) s.colour)
      (fillBox (s.colour.setWidth 8) (clippedRange s.y s.ty) (clippedRange s.x s.tx) g))

/-- `LineDraw` (R133): the event alone. -/
def lineDraw (s : State) : State := emit (.drawLine s.x s.y s.tx s.ty) s

/-- The draw a DY performs, chosen by `tool`: BLOCK (2), LINE (1), or none for every other value (R131, R134). -/
def drawByTool (s : State) : Except Fault State :=
  if s.tool = 2 then blockDraw s
  else if s.tool = 1 then .ok (lineDraw s)
  else .ok s

/-- DX (R130). -/
def execDx (n : U6) (s : State) : Host.Outcome State Fault Refusal :=
  .next { s with tx := s.tx + sext32 n }

/-- DY (R131): the `ty` update, the draw, the position commit. A fault discards the whole step (R201). -/
def execDy (n : U6) (s : State) : Host.Outcome State Fault Refusal :=
  match drawByTool { s with ty := s.ty + sext32 n } with
  | .error f => .fault f
  | .ok t => .next (commitPosition t)

end Sys2Proof.Machine
end

