-- ==== Sys2Proof/Machine/Tool.lean ====
section
/-! DEFINITION. The TOOL instructions (spec/43_tool.md R140 to R151): tool selection and directives. -/

namespace Sys2Proof.Machine

/-- TOOL NONE (R141). -/
def execToolNone (s : State) : Host.Outcome State Fault Refusal := .next (selectTool 0 s)

/-- TOOL LINE (R142). -/
def execToolLine (s : State) : Host.Outcome State Fault Refusal := .next (selectTool 1 s)

/-- TOOL BLOCK (R143). -/
def execToolBlock (s : State) : Host.Outcome State Fault Refusal := .next (selectTool 2 s)

/-- TOOL COLOUR (R144): all 32 bits of `data`, and a `SetColour` event. -/
def execToolColour (s : State) : Host.Outcome State Fault Refusal :=
  .next (clearData (emit (.setColour s.data) { s with colour := s.data }))

/-- TOOL TARGETX (R145): `i32(data)` is the same 32 bits (R6). -/
def execToolTargetX (s : State) : Host.Outcome State Fault Refusal := .next (clearData { s with tx := s.data })

/-- TOOL TARGETY (R146). -/
def execToolTargetY (s : State) : Host.Outcome State Fault Refusal := .next (clearData { s with ty := s.data })

/-- TOOL SHOW (R147). -/
def execToolShow (s : State) : Host.Outcome State Fault Refusal := .next (clearData (emit .showCanvas s))

/-- TOOL PAUSE (R148): the event is a request; the block does not wait. -/
def execToolPause (s : State) : Host.Outcome State Fault Refusal := .next (clearData (emit (.delay s.data) s))

/-- TOOL NEXTFRAME (R149): `pc` is still the offset of this byte, so `pc + 1` is the offset after it. -/
def execToolNextFrame (s : State) : Host.Outcome State Fault Refusal :=
  .next (clearData (raiseFrameEnded { s with frameStart := s.pc + 1 }))

/-- TOOL 9, the reserved code (R86, R150). -/
def execTool9 (s : State) : Host.Outcome State Fault Refusal := .next (selectTool 9 s)

/-- TOOL raw 10..11 (R87, R151). -/
def execToolRaw10 (t : U6) (s : State) : Host.Outcome State Fault Refusal := .next (selectTool t s)

/-- TOOL raw 12..15 (R87, R151). -/
def execToolRaw12 (t : U6) (s : State) : Host.Outcome State Fault Refusal := .next (selectTool t s)

/-- TOOL raw 16..31 (R87, R151). -/
def execToolRaw16 (t : U6) (s : State) : Host.Outcome State Fault Refusal := .next (selectTool t s)

/-- TOOL raw 32..63 (R87, R151). -/
def execToolRaw32 (t : U6) (s : State) : Host.Outcome State Fault Refusal := .next (selectTool t s)

end Sys2Proof.Machine
end

