-- ==== Sys2Proof/Machine/Dispatch.lean ====
section
/-! DEFINITION. The meaning of each instruction: the opcode dispatch of spec/41_decoder.md R124 and spec/43_tool.md R140. -/

namespace Sys2Proof.Machine

def exec (i : Instr) (s : State) : Host.Outcome State Fault Refusal :=
  match i with
  | .dx n => Sys2Proof.Machine.execDx n s
  | .dy n => Sys2Proof.Machine.execDy n s
  | .toolNone => Sys2Proof.Machine.execToolNone s
  | .toolLine => Sys2Proof.Machine.execToolLine s
  | .toolBlock => Sys2Proof.Machine.execToolBlock s
  | .toolColour => Sys2Proof.Machine.execToolColour s
  | .toolTargetX => Sys2Proof.Machine.execToolTargetX s
  | .toolTargetY => Sys2Proof.Machine.execToolTargetY s
  | .toolShow => Sys2Proof.Machine.execToolShow s
  | .toolPause => Sys2Proof.Machine.execToolPause s
  | .toolNextFrame => Sys2Proof.Machine.execToolNextFrame s
  | .tool9 => Sys2Proof.Machine.execTool9 s
  | .toolRaw10 t => Sys2Proof.Machine.execToolRaw10 t s
  | .toolRaw12 t => Sys2Proof.Machine.execToolRaw12 t s
  | .toolRaw16 t => Sys2Proof.Machine.execToolRaw16 t s
  | .toolRaw32 t => Sys2Proof.Machine.execToolRaw32 t s
  | .data g => Sys2Proof.Machine.execData g s

end Sys2Proof.Machine
end

