-- ==== Sys2Proof/Machine/RunControl.lean ====
section
/-! DEFINITION. The interpreter's step and the two kinds of invocation (spec/41_decoder.md R124, R125;
spec/45_run_control.md R170 to R181). -/

namespace Sys2Proof.Machine

/-! ### One step -/

/-- Whether `Step` is enabled (R125). -/
def stepEnabled (s : State) : Bool :=
  match s.run with
  | .idle => false
  | .full => decide (s.pc.toNat < s.program.length)
  | .frame => decide (s.pc.toNat < s.program.length) && !s.frameEnded

/-- `Step` for the fetched byte `b` (R124): the instruction's effect, then `pc <- pc + 1`. A fault discards the step and
ends the invocation (R201). -/
def stepByte (b : Byte) (s : State) : Host.Outcome State Fault Refusal :=
  match exec (decode b) s with
  | .next t => .next (advancePc t)
  | .fault f => .next (endFaulted f s)
  | .refused r => .refused r

/-! ### Full-stream decode -/

/-- `StartFull` (R171): everything but `E`, `B` and the program is zeroed. -/
def startFull (s : State) : State :=
  clearFrameEnded { s with
    x := 0, y := 0, tx := 0, ty := 0, w := 0, h := 0, canvas := [], tool := 0, colour := 0, data := 0,
    frameStart := 0, pc := 0, run := .full, outcome := none }

/-- The stop of a full-stream decode at end of stream (R172). -/
def stopFull (s : State) : State := { s with run := .idle, outcome := some .normal }

/-- One turn of the full-stream loop (R172): `frameEnded` does not stop it. -/
def turnFull (s : State) : Host.Outcome State Fault Refusal :=
  match fetch s with
  | some b => stepByte b s
  | none => .next (stopFull s)

/-! ### Frame-step -/

/-- `min(frameStart, L)` (R174). -/
def frameEntry (s : State) : Word := BitVec.ofNat 32 (min s.frameStart.toNat s.program.length)

/-- `StartFrame` (R174): the transient registers are reset; `frameStart`, the canvas and its bounds stay, and `colour`
too unless `FRAME_RESET_COLOUR`. -/
def startFrame (s : State) : State :=
  clearFrameEnded { s with
    x := 0, y := 0, tx := 0, ty := 0, tool := 0, data := 0,
    colour := if s.params.frameResetColour then 0 else s.colour,
    pc := frameEntry s, run := .frame, outcome := none }

/-- `StopFrame` (R176): end of stream wraps the frame cursor to 0, a NEXTFRAME keeps what it recorded. -/
def stopFrame (s : State) : State :=
  { s with frameStart := if s.frameEnded then s.frameStart else 0, run := .idle, outcome := some .normal }

/-- One turn of the frame-step loop (R175). -/
def turnFrame (s : State) : Host.Outcome State Fault Refusal :=
  if s.frameEnded then .next (stopFrame s)
  else
    match fetch s with
    | some b => stepByte b s
    | none => .next (stopFrame s)

end Sys2Proof.Machine
end

