-- ==== Sys2Proof/Machine/HostPort.lean ====
section
/-! DEFINITION. The host's commands (spec/60_exceptions.md R214), the canvas readout (spec/20_memory.md R58), the three
drivers (R216 to R218), and which agent moves next (spec/00_scope.md R2). -/

namespace Sys2Proof.Machine

/-! ### Canvas readout -/

/-- The ASCII byte of a decimal digit. -/
def digitByte (d : Nat) : Byte := BitVec.ofNat 8 (48 + d)

/-- The decimal digits of `n`, before `acc`; `fuel` bounds their number. -/
def decimalFrom : Nat → Nat → List Byte → List Byte
  | 0, _, acc => acc
  | fuel + 1, n, acc =>
    if n < 10 then digitByte n :: acc else decimalFrom fuel (n / 10) (digitByte (n % 10) :: acc)

/-- A canvas bound in decimal: at most 2^31 − 1, so ten digits. -/
def decimalBytes (v : Word) : List Byte := decimalFrom 10 v.toInt.toNat []

/-- `P5 <w> <h> 255` and a newline, with single spaces (R58). -/
def rasterHeader (w h : Word) : List Byte :=
  [0x50, 0x35, 0x20] ++ decimalBytes w ++ [0x20] ++ decimalBytes h ++ [0x20, 0x32, 0x35, 0x35, 0x0A]

/-- The cells of one row, column 0 first. -/
def rowBytes (s : State) (row : Nat) : List Byte :=
  (List.range s.w.toInt.toNat).map (fun col => Memory.read s.params.canvasFill s.canvas (cellAddr col row))

/-- The cells of `n` rows from `row` on, row by row. -/
def rowsFrom (s : State) (row : Nat) : Nat → List Byte
  | 0 => []
  | n + 1 => rowBytes s row ++ rowsFrom s (row + 1) n

/-- The serialised canvas (R58). -/
def serialiseCanvas (s : State) : List Byte := rasterHeader s.w s.h ++ rowsFrom s 0 s.h.toInt.toNat

/-! ### Commands -/

/-- The register file, `pc` and `run` (R20, R214). -/
def regFile (s : State) : RegFile :=
  { x := s.x, y := s.y, tx := s.tx, ty := s.ty, w := s.w, h := s.h, tool := s.tool, colour := s.colour, data := s.data,
    frameStart := s.frameStart, frameEnded := s.frameEnded, pc := s.pc, run := s.run }

/-- Gives the host what a command returned. -/
def reply (r : Reply) (s : State) : State := { s with replies := s.replies ++ [r] }

/-- `Reset` (R230): every register, `pc`, `run`, the canvas, `E` and `B`; program memory is not touched. -/
def powerOnReset (s : State) : State :=
  { State.reset with
    program := s.program, params := s.params, commands := s.commands, replies := s.replies }

/-- `LoadProgram` (R52, R53, R214): replaces program memory; a program longer than `PROG_MAX_LEN` is refused, with no
effect. -/
def loadProgram (bytes : List Byte) (s : State) : State :=
  if programWf bytes then { s with program := bytes } else reply (.refused .programTooLong) s

/-- `TakeEvents` (R214): returns `E` in order and empties it. -/
def takeEvents (s : State) : State := reply (.eventList s.events) { s with events := [] }

/-- `Encode` (R214): appends `EncodeProgram(list)` to `B` and returns `B`; a refusal appends nothing (R114). -/
def encodeCommand (rects : List Rect) (s : State) : State :=
  match encodeProgram rects with
  | .ok bytes => reply (.encoded (s.buffer ++ bytes)) { s with buffer := s.buffer ++ bytes }
  | .error e => reply (.refused e) s

/-- The effect of a command the host issues while `run = IDLE` (the table of R214). -/
def runCommand (c : Command) (s : State) : State :=
  match c with
  | .reset => powerOnReset s
  | .loadProgram bytes => loadProgram bytes s
  | .startFull => startFull s
  | .startFrame => startFrame s
  | .readState => reply (.registers (regFile s)) s
  | .readCanvas => reply (.raster (serialiseCanvas s)) s
  | .takeEvents => takeEvents s
  | .encode rects => encodeCommand rects s

/-- The host's move (R2, R215): its next command. With none pending the machine keeps its whole state (R220). -/
def hostTurn (s : State) : State :=
  match s.commands with
  | [] => s
  | c :: rest => runCommand c { s with commands := rest }

/-- One move of the machine: the host between invocations, the interpreter within one (R2, R33, R170). -/
def turn (s : State) : Host.Outcome State Fault Refusal :=
  match s.run with
  | .idle => .next (hostTurn s)
  | .full => turnFull s
  | .frame => turnFrame s

/-! ### Drivers -/

/-- The Raster→Program host (R216). -/
def rasterToProgram (rects : List Rect) : List Command := [.encode rects]

/-- The Program→Raster host (R217). -/
def programToRaster (file : List Byte) : List Command :=
  [.reset, .loadProgram file, .startFull, .readCanvas, .takeEvents]

/-- One redraw tick of the Interactive Viewer (R218); the flush that ends it is the host's own call. -/
def viewerTick (file : List Byte) : List Command := [.loadProgram file, .startFrame, .takeEvents]

/-- A viewing session (R218): one `Reset`, then a tick for each re-opening of the file until a key press. -/
def viewerSession (files : List (List Byte)) : List Command := .reset :: files.flatMap viewerTick

end Sys2Proof.Machine
end

