-- ==== Sys2Proof/Machine/Step.lean ====
section
/-! DEFINITION. One step of the machine, and where a word is placed for the next step to run it. -/

namespace Sys2Proof.Machine

/-- One step: the host's next command while `run = IDLE`, one turn of the interpreter otherwise. -/
def step (s : State) : Host.Outcome State Fault Refusal := turn s

/-- `s` with the byte made of bits 7..0 at offset `pc` of program memory, and with a run status that lets the step at `pc`
be taken: that of `s` where `s` already runs, a full-stream decode otherwise (log entry 7). -/
def State.withFetchWord (s : State) (nbits w : Nat) : State :=
  { s with
    program := placeByte s.pc.toNat (BitVec.ofNat 8 (w % 2 ^ nbits)) s.program
    run := if s.run = .frame ∧ s.frameEnded = false then .frame else .full }

end Sys2Proof.Machine
end

