-- ==== Sys2Proof/Machine/Assembler.lean ====
section
/-! DEFINITION. The assembler syntax and pseudo-instructions of spec/30_encoding.md R90 to R95. The text's spacing and the
forms of the wide operands are log entry 8. -/

namespace Sys2Proof.Machine

/-- One assembler line (R90 to R94), its operands not yet checked. -/
inductive AsmLine where
  | dx (n : Int)
  | dy (n : Int)
  | tool (t : Int)
  | data (g : Int)
  | load (v : Int)
  | setColour (v : Int)
  | setTX (v : Int)
  | setTY (v : Int)
  | wait (ms : Int)
  | rect (c x1 y1 x2 y2 : Int)
  | drawX (d : Int)
deriving DecidableEq, Repr

/-- Why a line does not assemble. -/
inductive AsmError where
  /-- "An operand outside its range is an assembly error" (R90). -/
  | operandRange
  /-- The line has none of the forms of R90 to R94. -/
  | badLine
deriving DecidableEq, Repr

/-- The byte `(op << 6) | (operand & 63)` (R90). -/
def asmByte (op : Byte) (operand : Int) : Byte := (op <<< 6) ||| (BitVec.ofInt 8 operand &&& 63)

/-- `lo ≤ n ≤ hi`. -/
def within (lo hi n : Int) : Bool := decide (lo ≤ n) && decide (n ≤ hi)

/-- An `i32` operand (R92). -/
def isI32 (n : Int) : Bool := within (-2147483648) 2147483647 n

/-- A `u32` operand (R91). -/
def isU32 (n : Int) : Bool := within 0 4294967295 n

/-- `bytes` when the operands are in range, the assembly error of R90 otherwise. -/
def checked (ok : Bool) (bytes : List Byte) : Except AsmError (List Byte) :=
  if ok then .ok bytes else .error .operandRange

/-- The bytes of one line (R90 to R94). -/
def assembleLine : AsmLine → Except AsmError (List Byte)
  | .dx n => checked (within (-32) 31 n) [asmByte 0 n]
  | .dy n => checked (within (-32) 31 n) [asmByte 1 n]
  | .tool t => checked (within 0 63 t) [asmByte 2 t]
  | .data g => checked (within 0 63 g) [asmByte 3 g]
  | .load v => checked (isU32 v) (encodeValue (BitVec.ofInt 32 v))
  | .setColour v => checked (isU32 v) (encodeLoadCommit (BitVec.ofInt 32 v) .colour)
  | .setTX v => checked (isI32 v) (encodeLoadCommit (BitVec.ofInt 32 v) .targetX)
  | .setTY v => checked (isI32 v) (encodeLoadCommit (BitVec.ofInt 32 v) .targetY)
  | .wait ms => checked (isU32 ms) (encodeLoadCommit (BitVec.ofInt 32 ms) .pause)
  | .rect c x1 y1 x2 y2 =>
    checked (within 0 255 c && isI32 x1 && isI32 y1 && isI32 x2 && isI32 y2)
      (rectangleBytes (BitVec.ofInt 32 c) (BitVec.ofInt 32 x1) (BitVec.ofInt 32 y1) (BitVec.ofInt 32 x2)
        (BitVec.ofInt 32 y2))
  | .drawX d => checked (within (-32) 31 d) [asmByte 0 d, asmByte 1 0]

/-- A program file: the concatenation of its lines' bytes in order, with nothing added (R95). -/
def assembleLines : List AsmLine → Except AsmError (List Byte)
  | [] => .ok []
  | l :: rest =>
    match assembleLine l with
    | .error e => .error e
    | .ok bytes =>
      match assembleLines rest with
      | .error e => .error e
      | .ok more => .ok (bytes ++ more)

/-! ### The text form -/

/-- What separates the words of a line. -/
def isSeparator (c : Char) : Bool := c == ' ' || c == '\t' || c == ',' || c == '\r'

/-- The words of a text; `acc` holds the word being read, last character first. -/
def wordsFrom (acc : List Char) : List Char → List (List Char)
  | [] => if acc = [] then [] else [acc.reverse]
  | c :: rest =>
    if isSeparator c then
      if acc = [] then wordsFrom [] rest else acc.reverse :: wordsFrom [] rest
    else wordsFrom (c :: acc) rest

/-- The lines of a text; `acc` holds the line being read, last character first. -/
def linesFrom (acc : List Char) : List Char → List (List Char)
  | [] => [acc.reverse]
  | c :: rest => if c = '\n' then acc.reverse :: linesFrom [] rest else linesFrom (c :: acc) rest

/-- The value of a digit below `base`. -/
def digitValue (base : Nat) (c : Char) : Option Nat :=
  let n := c.toNat
  let v := if 48 ≤ n ∧ n ≤ 57 then n - 48
    else if 65 ≤ n ∧ n ≤ 70 then n - 55
    else if 97 ≤ n ∧ n ≤ 102 then n - 87
    else base
  if v < base then some v else none

/-- A run of digits, most significant first. -/
def digitsFrom (base acc : Nat) : List Char → Option Nat
  | [] => some acc
  | c :: rest =>
    match digitValue base c with
    | none => none
    | some v => digitsFrom base (acc * base + v) rest

/-- A decimal integer, with a minus sign where it is negative: `<n>` (R90). -/
def parseDecimal : List Char → Option Int
  | [] => none
  | '-' :: c :: rest => (digitsFrom 10 0 (c :: rest)).map (fun n => -(n : Int))
  | c :: rest => (digitsFrom 10 0 (c :: rest)).map (fun n => (n : Int))

/-- A decimal integer, or a `0x` hexadecimal one: `<g>` (R90), and, by log entry 8, the operands whose form the spec leaves
open. -/
def parseInt : List Char → Option Int
  | '0' :: 'x' :: c :: rest => (digitsFrom 16 0 (c :: rest)).map (fun n => (n : Int))
  | cs => parseDecimal cs

/-- A tool name of R83. -/
def parseToolName (w : List Char) : Option Int :=
  if w = ['N', 'O', 'N', 'E'] then some 0
  else if w = ['L', 'I', 'N', 'E'] then some 1
  else if w = ['B', 'L', 'O', 'C', 'K'] then some 2
  else if w = ['C', 'O', 'L', 'O', 'U', 'R'] then some 3
  else if w = ['T', 'A', 'R', 'G', 'E', 'T', 'X'] then some 4
  else if w = ['T', 'A', 'R', 'G', 'E', 'T', 'Y'] then some 5
  else if w = ['S', 'H', 'O', 'W'] then some 6
  else if w = ['P', 'A', 'U', 'S', 'E'] then some 7
  else if w = ['N', 'E', 'X', 'T', 'F', 'R', 'A', 'M', 'E'] then some 8
  else none

/-- `<sel>`: a tool name, or an integer (R90). -/
def parseSelector (w : List Char) : Option Int :=
  match parseToolName w with
  | some t => some t
  | none => parseInt w

/-- A line with one operand: DX and DY take a decimal one only (R90). -/
def parseUnary (key w : List Char) : Option AsmLine :=
  if key = ['D', 'X'] then (parseDecimal w).map .dx
  else if key = ['D', 'Y'] then (parseDecimal w).map .dy
  else if key = ['T', 'O', 'O', 'L'] then (parseSelector w).map .tool
  else if key = ['D', 'A', 'T', 'A'] then (parseInt w).map .data
  else if key = ['L', 'O', 'A', 'D'] then (parseInt w).map .load
  else if key = ['S', 'E', 'T', 'C', 'O', 'L', 'O', 'U', 'R'] then (parseInt w).map .setColour
  else if key = ['S', 'E', 'T', 'T', 'X'] then (parseInt w).map .setTX
  else if key = ['S', 'E', 'T', 'T', 'Y'] then (parseInt w).map .setTY
  else if key = ['W', 'A', 'I', 'T'] then (parseInt w).map .wait
  else if key = ['D', 'R', 'A', 'W', 'X'] then (parseInt w).map .drawX
  else none

/-- The line a list of words is. -/
def parseWords : List (List Char) → Option AsmLine
  | [key, w] => parseUnary key w
  | [key, c, x1, y1, x2, y2] =>
    if key = ['R', 'E', 'C', 'T'] then
      match parseInt c, parseInt x1, parseInt y1, parseInt x2, parseInt y2 with
      | some c, some x1, some y1, some x2, some y2 => some (.rect c x1 y1 x2 y2)
      | _, _, _, _, _ => none
    else none
  | _ => none

/-- The assembler lines of a text's lines: `;` begins a comment (R90). A line with no words, blank or a comment alone,
assembles to nothing: R90 does not say what it is (DESIGN CHOICE, log entry 8). -/
def parseLines : List (List Char) → Except AsmError (List AsmLine)
  | [] => .ok []
  | l :: rest =>
    match parseLines rest with
    | .error e => .error e
    | .ok more =>
      match wordsFrom [] (l.takeWhile (fun c => c != ';')) with
      | [] => .ok more
      | w :: ws =>
        match parseWords (w :: ws) with
        | none => .error .badLine
        | some line => .ok (line :: more)

/-- The program file of an assembler text (R90, R95). -/
def assembleText (text : List Char) : Except AsmError (List Byte) :=
  match parseLines (linesFrom [] text) with
  | .error e => .error e
  | .ok lines => assembleLines lines

end Sys2Proof.Machine
end

