-- ==== Sys2Proof/Safety.lean ====
section
/-! DEFINITION. The terms claims are stated in: the machine's invariant, what it means that a step leaves things alone, and
which invocations end well. -/

namespace Sys2Proof.Machine

/-- R7 and R121: `v6` if `v6 ≤ 31`, else `v6 − 64`. -/
def s6 (n : U6) : Int := if n.toNat ≤ 31 then n.toNat else (n.toNat : Int) - 64

/-- `a +32 k` on integers: the sum modulo 2^32, as an `i32` (R6). -/
def add32 (a : Word) (k : Int) : Word := BitVec.ofInt 32 (a.toInt + k)

/-- `a −32 b` on integers: the difference modulo 2^32, as an `i32` (R6). -/
def sub32 (a b : Word) : Word := BitVec.ofInt 32 (a.toInt - b.toInt)

/-- `i32(u)`: `u` if `u < 2^31`, else `u − 2^32` (R6). -/
def i32 (u : Word) : Int := if u.toNat < 2147483648 then u.toNat else (u.toNat : Int) - 4294967296

/-- The `ty` a DY computes before it draws (R131). -/
def movedTy (n : U6) (s : State) : Word := add32 s.ty (s6 n)

/-- DY's growth request to (`tx`, `ty`) passes the canvas capacity (R57, R201). -/
def pastCapacity (s : State) (tx ty : Word) : Prop :=
  (s.params.canvasMaxW : Int) < tx.toInt ∨ (s.params.canvasMaxH : Int) < ty.toInt

/-- `Step` applied to the bytes of a sequence in turn, whatever `run` is: the effect of a byte sequence, as R113 speaks of
it. It stops at a fault. -/
def runBytes : List Byte → State → Host.Outcome State Fault Refusal
  | [], s => .next s
  | b :: rest, s =>
    match exec (decode b) s with
    | .next t => runBytes rest (advancePc t)
    | .fault f => .fault f
    | .refused r => .refused r

/-- The values `tool` can hold: 0, 1, 2 and 9..63, never a directive code 3..8 (R27, R37). -/
abbrev toolLegal (t : U6) : Prop := t.toNat ≤ 2 ∨ 9 ≤ t.toNat

/-- The machine's invariant: R37 (tool, bounds), R57 (the canvas is never past its capacity), R54 with the canonical form of
the cells (no cell outside the bounds), R52 (program length), R30 (`frameStart`), and R31 (`pc` is 0..L within an
invocation). -/
structure State.Inv (s : State) : Prop where
  tool_legal : toolLegal s.tool
  w_nonneg : 0 ≤ s.w.toInt
  h_nonneg : 0 ≤ s.h.toInt
  w_capacity : s.w.toInt ≤ s.params.canvasMaxW
  h_capacity : s.h.toInt ≤ s.params.canvasMaxH
  canvas_wf : Memory.wf s.params.canvasFill s.canvas = true
  canvas_bounds : ∀ c ∈ s.canvas, inBounds s.w s.h (cellCol c.1) (cellRow c.1) = true
  program_length : s.program.length ≤ Config.progMaxLen
  frameStart_le : s.frameStart.toNat ≤ Config.progMaxLen
  pc_le : s.run ≠ .idle → s.pc.toNat ≤ s.program.length

/-- Every cell reads the same, and the same cells exist (R54). -/
def SameCells (s t : State) : Prop := ∀ col row, readCell t col row = readCell s col row

/-- The position and the target are the same (R21 to R24). -/
def SamePosition (s t : State) : Prop := t.x = s.x ∧ t.y = s.y ∧ t.tx = s.tx ∧ t.ty = s.ty

/-- The canvas bounds and every cell are the same (R25, R26, R34). -/
def SameCanvas (s t : State) : Prop := t.w = s.w ∧ t.h = s.h ∧ SameCells s t

/-- The frame cursor and the frame flag are the same (R30, R32). -/
def SameFrame (s t : State) : Prop := t.frameStart = s.frameStart ∧ t.frameEnded = s.frameEnded

/-- Everything no instruction writes is the same: program memory (R53), the encoder's buffer (R116), the parameters (R38),
the invocation status and outcome (R33, R201), and the host's queues (R2). -/
def SameOutside (s t : State) : Prop :=
  t.program = s.program ∧ t.buffer = s.buffer ∧ t.params = s.params ∧ t.run = s.run ∧ t.outcome = s.outcome
    ∧ t.commands = s.commands ∧ t.replies = s.replies

/-- Cell (`col`, `row`) lies in the half-open box `[x, tx) × [y, ty)` (R132); the cell's coordinates are never negative. -/
def inBox (x y tx ty : Word) (col row : Nat) : Bool :=
  decide (x.toInt ≤ col) && decide ((col : Int) < tx.toInt) && decide (y.toInt ≤ row) && decide ((row : Int) < ty.toInt)

/-- What `BlockDraw` leaves in cell (`col`, `row`) of state `s` (R56, R132): the low byte of `colour` in the drawn box, the
old byte in an old cell outside it, `CANVAS_FILL` in a new cell outside it, and no cell beyond the new bounds. -/
def drawnCell (s : State) (x y tx ty : Word) (col row : Nat) : Option Byte :=
  if inBounds (smax s.w tx) (smax s.h ty) col row then
    if inBox x y tx ty col row then some (s.colour.setWidth 8)
    else if inBounds s.w s.h col row then readCell s col row
    else some s.params.canvasFill
  else none

/-- An invocation that ended at its stop condition, not by a fault (R173, R201). -/
def EndedNormally (s : State) : Prop := s.run = .idle ∧ s.outcome = some .normal

/-- The instruction is a directive: a TOOL with code 3..8 (R84). -/
def isDirective : Instr → Bool
  | .dx _ => false
  | .dy _ => false
  | .toolNone => false
  | .toolLine => false
  | .toolBlock => false
  | .toolColour => true
  | .toolTargetX => true
  | .toolTargetY => true
  | .toolShow => true
  | .toolPause => true
  | .toolNextFrame => true
  | .tool9 => false
  | .toolRaw10 _ => false
  | .toolRaw12 _ => false
  | .toolRaw16 _ => false
  | .toolRaw32 _ => false
  | .data _ => false

/-- The code a TOOL instruction writes to `tool`, where it is not a directive (R84). -/
def toolCode : Instr → Option U6
  | .dx _ => none
  | .dy _ => none
  | .toolNone => some 0
  | .toolLine => some 1
  | .toolBlock => some 2
  | .toolColour => none
  | .toolTargetX => none
  | .toolTargetY => none
  | .toolShow => none
  | .toolPause => none
  | .toolNextFrame => none
  | .tool9 => some 9
  | .toolRaw10 t => some t
  | .toolRaw12 t => some t
  | .toolRaw16 t => some t
  | .toolRaw32 t => some t
  | .data _ => none

/-- The Rectangle covers cell (`col`, `row`): the half-open box `[x1,x2) × [y1,y2)` (R100). -/
def Rect.covers (r : Rect) (col row : Nat) : Bool := inBox r.x1 r.y1 r.x2 r.y2 col row

/-- The Rectangle lies within `[0,W) × [0,H)` (R117). -/
def Rect.within (r : Rect) (W H : Nat) : Prop :=
  0 ≤ r.x1.toInt ∧ r.x2.toInt ≤ W ∧ 0 ≤ r.y1.toInt ∧ r.y2.toInt ≤ H

/-- The Rectangles partition the `W`×`H` raster `C` (R117): each lies within it, has a colour 0..255 that is the colour of
the cells it covers, and every cell lies in exactly one of them. -/
structure Partitions (rects : List Rect) (W H : Nat) (C : Nat → Nat → Byte) : Prop where
  within : ∀ r ∈ rects, r.within W H
  colour : ∀ r ∈ rects, 0 ≤ r.colour ∧ r.colour ≤ 255
  same : ∀ r ∈ rects, ∀ col row, r.covers col row = true → C col row = BitVec.ofInt 8 r.colour
  covered : ∀ col row, col < W → row < H → ∃ r ∈ rects, r.covers col row = true
  once : rects.Pairwise (fun r q => ∀ col row, ¬ (r.covers col row = true ∧ q.covers col row = true))

end Sys2Proof.Machine
end

