-- ==== Sys2Proof/Certificates/Slice0/Obligations.lean ====
section
/-! DEFINITION. The statements about the model, for the provers. Each docstring names the rule of spec/ it formalises.
`{ s with … }` in a conclusion is the whole frame: every field of State not named there is unchanged, the canvas, the
event output and program memory among them. -/

open Sys2Proof Sys2Proof.Machine

/-! ### Decoding and encoding -/

/-- Encoding and decoding are inverse to each other on whole instruction streams (R80, R81, R83, R85, R95, R123): no bit of
a well-formed instruction is lost, and every byte string is the code of exactly the instructions it decodes to. -/
def Obligations.StreamsDecodeToWhatTheyEncode : Prop :=
  (∀ is : List Instr, (∀ i ∈ is, i.wf = true) → decodeAll (encodeAll is) = is) ∧
  (∀ bytes : List Byte, encodeAll (decodeAll bytes) = bytes ∧ ∀ i ∈ decodeAll bytes, i.wf = true)

/-- One word of each family, written out from the encoding tables of R81 and R83. -/
def Obligations.WordsOfEachFamilyDecode : Prop :=
  decode 0b00111101#8 = .dx 0b111101#6 ∧ decode 0b01000111#8 = .dy 0b000111#6 ∧
  decode 0b10000010#8 = .toolBlock ∧ decode 0b10000100#8 = .toolTargetX ∧ decode 0b10001000#8 = .toolNextFrame ∧
  decode 0b10001001#8 = .tool9 ∧ decode 0b10100000#8 = .toolRaw32 0b100000#6 ∧
  decode 0b11100000#8 = .data 0b100000#6

/-- The 17 rows of spec/opcode_table.json are disjoint and cover every byte: a byte has the fixed bits of an instruction's
row exactly when it decodes to an instruction of that row. -/
def Obligations.OpcodeRowsPartitionTheBytes : Prop :=
  ∀ (b : Byte) (i : Instr),
    b &&& (opcodeRow i).mask = (opcodeRow i).pattern ↔ opcodeRow (decode b) = opcodeRow i

/-- R121 and R122: the operand of DX and DY is read as signed, that of TOOL and DATA as unsigned. -/
def Obligations.OperandsSignedForMovesOnly : Prop :=
  (∀ v : Int, -32 ≤ v → v ≤ 31 → ∃ n m : U6,
    decode (assembleByte 0b00 (BitVec.ofInt 6 v)) = .dx n ∧ (sext32 n).toInt = v ∧
    decode (assembleByte 0b01 (BitVec.ofInt 6 v)) = .dy m ∧ (sext32 m).toInt = v) ∧
  (∃ n m : U6, decode (assembleByte 0b00 0b100000) = .dx n ∧ (sext32 n).toInt = -32 ∧
    decode (assembleByte 0b01 0b100000) = .dy m ∧ (sext32 m).toInt = -32) ∧
  (∀ u : Nat, u ≤ 63 → ∃ g : U6,
    decode (assembleByte 0b11 (BitVec.ofNat 6 u)) = .data g ∧ (zext32 g).toNat = u) ∧
  (∀ u : Nat, u ≤ 63 →
    if 3 ≤ u ∧ u ≤ 8 then isDirective (decode (assembleByte 0b10 (BitVec.ofNat 6 u))) = true
    else ∃ t : U6, toolCode (decode (assembleByte 0b10 (BitVec.ofNat 6 u))) = some t ∧ (zext32 t).toNat = u)

/-! ### DX and DY -/

/-- R130: DX adds its signed operand to `tx`, wrapping, and changes nothing else. -/
def Obligations.DxAddsSignedOperandToTx : Prop :=
  (∀ n : U6, decode (assembleByte 0b00 n) = .dx n) ∧
  ∀ (n : U6) (s : State), exec (.dx n) s = .next { s with tx := add32 s.tx (s6 n) }

/-- 42_motion.md's "After DY, `x = tx` and `y = ty` always, whatever the tool": a DY that answers a next state has moved `ty`
by its operand, kept `tx` and committed both. -/
def Obligations.DyAlwaysCommitsTheTarget : Prop :=
  ∀ (n : U6) (s t : State), exec (.dy n) s = .next t →
    t.ty = movedTy n s ∧ t.tx = s.tx ∧ t.x = t.tx ∧ t.y = t.ty

/-- R134: a DY under any tool but BLOCK and LINE moves `ty` and commits the position, and does nothing else. -/
def Obligations.DyWithoutDrawingToolOnlyCommits : Prop :=
  (∀ n : U6, decode (assembleByte 0b01 n) = .dy n) ∧
  ∀ (n : U6) (s : State), s.tool ≠ 1 → s.tool ≠ 2 →
    exec (.dy n) s = .next { s with ty := movedTy n s, x := s.tx, y := movedTy n s }

/-- R133 within R131: a DY under LINE emits the line from the old position to the moved target, and commits. -/
def Obligations.DyLineEmitsOneLine : Prop :=
  ∀ (n : U6) (s : State), s.tool = 1 →
    exec (.dy n) s = .next { s with
      ty := movedTy n s, x := s.tx, y := movedTy n s,
      events := s.events ++ [.drawLine s.x s.y s.tx (movedTy n s)] }

/-- R132 within R131, with R56: a DY under BLOCK, within the capacity, grows the bounds to the target, leaves every cell as
`drawnCell` says, emits the rectangle and commits, and apart from the fields named nothing changes; past the capacity it
raises the fault with the target, before any of that. -/
def Obligations.DyBlockFillsTheBox : Prop :=
  ∀ (n : U6) (s : State), s.tool = 2 →
    (¬ pastCapacity s s.tx (movedTy n s) →
      ∃ t, exec (.dy n) s = .next t ∧
        t = { s with
          ty := movedTy n s, x := s.tx, y := movedTy n s,
          w := smax s.w s.tx, h := smax s.h (movedTy n s),
          canvas := t.canvas,
          events := s.events ++
            [.drawFilledRect s.x s.y (sub32 s.tx s.x) (sub32 (movedTy n s) s.y) s.colour] } ∧
        ∀ col row, readCell t col row = drawnCell s s.x s.y s.tx (movedTy n s) col row) ∧
    (pastCapacity s s.tx (movedTy n s) →
      exec (.dy n) s = .fault (.canvasCapacity s.pc s.tx (movedTy n s)))

/-- R132's corner cases: a zero-area or reversed box changes no cell that the canvas has, whatever its colour. -/
def Obligations.EmptyBoxDrawsNoCell : Prop :=
  ∀ (n : U6) (s t : State), s.tool = 2 → exec (.dy n) s = .next t →
    (s.tx.toInt ≤ s.x.toInt ∨ (movedTy n s).toInt ≤ s.y.toInt) →
    ∀ col row, inBounds s.w s.h col row = true → readCell t col row = readCell s col row

/-- The frame of DY's store (R55, R56): every old cell outside the box `[x, tx) × [y, ty)`, with the `ty` DY computes, reads
as before; a DY under another tool changes no cell; and the bounds never shrink. -/
def Obligations.DyChangesOnlyCellsInItsBox : Prop :=
  ∀ (n : U6) (s t : State), exec (.dy n) s = .next t →
    (∀ col row, inBounds s.w s.h col row = true →
      ¬ (s.tool = 2 ∧ inBox s.x s.y s.tx (movedTy n s) col row = true) → readCell t col row = readCell s col row) ∧
    (s.tool ≠ 2 → SameCanvas s t) ∧
    s.w.toInt ≤ t.w.toInt ∧ s.h.toInt ≤ t.h.toInt

/-- R57: under BLOCK a target past the capacity raises the capacity fault, nothing else does, and at the reference capacity
(2^31 − 1 each) or above no DY ever raises it. -/
def Obligations.DyBlockFaultsExactlyPastCapacity : Prop :=
  ∀ (n : U6) (s : State),
    ((∃ f, exec (.dy n) s = .fault f) ↔ s.tool = 2 ∧ pastCapacity s s.tx (movedTy n s)) ∧
    (2147483647 ≤ s.params.canvasMaxW → 2147483647 ≤ s.params.canvasMaxH → ∀ f, exec (.dy n) s ≠ .fault f)

/-! ### TOOL -/

/-- R141, R142, R143, R150, R151: a tool code is written to `tool` unchanged, and `data` is cleared. -/
def Obligations.ToolCodesSelectTheTool : Prop :=
  (decode 0x80 = .toolNone ∧ decode 0x81 = .toolLine ∧ decode 0x82 = .toolBlock ∧ decode 0x89 = .tool9 ∧
    ∀ t : U6, 10 ≤ t.toNat → toolCode (decode (assembleByte 0b10 t)) = some t) ∧
  ∀ s : State,
    exec .toolNone s = .next { s with tool := 0, data := 0 } ∧
    exec .toolLine s = .next { s with tool := 1, data := 0 } ∧
    exec .toolBlock s = .next { s with tool := 2, data := 0 } ∧
    exec .tool9 s = .next { s with tool := 9, data := 0 } ∧
    ∀ t : U6,
      exec (.toolRaw10 t) s = .next { s with tool := t, data := 0 } ∧
      exec (.toolRaw12 t) s = .next { s with tool := t, data := 0 } ∧
      exec (.toolRaw16 t) s = .next { s with tool := t, data := 0 } ∧
      exec (.toolRaw32 t) s = .next { s with tool := t, data := 0 }

/-- R144: COLOUR commits all 32 bits of the accumulator and emits them. -/
def Obligations.ToolColourCommitsAccumulator : Prop :=
  decode 0x83 = .toolColour ∧
  ∀ s : State, exec .toolColour s =
    .next { s with colour := s.data, data := 0, events := s.events ++ [.setColour s.data] }

/-- R145 and R146: TARGETX and TARGETY load the target with `i32(data)`; the position stays. -/
def Obligations.ToolTargetsLoadSignedAccumulator : Prop :=
  decode 0x84 = .toolTargetX ∧ decode 0x85 = .toolTargetY ∧
  ∀ s : State,
    (∃ v : Word, v.toInt = i32 s.data ∧ exec .toolTargetX s = .next { s with tx := v, data := 0 }) ∧
    (∃ v : Word, v.toInt = i32 s.data ∧ exec .toolTargetY s = .next { s with ty := v, data := 0 })

/-- R147: SHOW emits `Show` and clears the accumulator. -/
def Obligations.ToolShowEmitsShow : Prop :=
  decode 0x86 = .toolShow ∧
  ∀ s : State, exec .toolShow s = .next { s with data := 0, events := s.events ++ [.showCanvas] }

/-- R148: PAUSE emits `Delay(data)`, for `data = 0` too, and clears the accumulator. -/
def Obligations.ToolPauseEmitsDelay : Prop :=
  decode 0x87 = .toolPause ∧
  ∀ s : State, exec .toolPause s = .next { s with data := 0, events := s.events ++ [.delay s.data] }

/-- R149: NEXTFRAME records the offset after its own byte and raises the frame flag. -/
def Obligations.ToolNextFrameRecordsNextOffset : Prop :=
  decode 0x88 = .toolNextFrame ∧
  ∀ s : State, exec .toolNextFrame s = .next { s with frameStart := s.pc + 1, frameEnded := true, data := 0 }

/-- R84, with R140's last action: every TOOL byte clears `data`; a directive leaves `tool`, every other code is written to
it. -/
def Obligations.EveryToolByteClearsData : Prop :=
  ∀ (u : U6) (s : State), ∃ t, exec (decode (assembleByte 0b10 u)) s = .next t ∧ t.data = 0 ∧
    t.tool = if 3 ≤ u.toNat ∧ u.toNat ≤ 8 then s.tool else u

/-! ### DATA and value loads -/

/-- R160 and R161: DATA multiplies the accumulator by 64 and adds the fragment, modulo 2^32. -/
def Obligations.DataShiftsFragmentIn : Prop :=
  (∀ g : U6, decode (assembleByte 0b11 g) = .data g) ∧
  ∀ (g : U6) (s : State), exec (.data g) s = .next { s with data := BitVec.ofNat 32 (s.data.toNat * 64 + g.toNat) }

/-- The spec's own inference in 44_data.md ("the DATA run … leaves"): a run of DATA bytes, most significant first, leaves
`(d · 64^k + Σ g[i] · 64^i) mod 2^32` and moves `pc` past the run. -/
def Obligations.DataRunAssemblesValue : Prop :=
  ∀ (gs : List U6) (s : State),
    runBytes (gs.map (fun g => encode (.data g))) s = .next { s with
      data := BitVec.ofNat 32
        (s.data.toNat * 64 ^ gs.length + Nat.ofDigits 64 (gs.map (fun g => g.toNat)).reverse)
      pc := s.pc + BitVec.ofNat 32 gs.length }

/-- R101 read back by R160 (44_data.md: "the run `EncodeValue(v)` … leaves exactly `data = v`"): from an empty
accumulator. -/
def Obligations.EncodedValueLoadsExactly : Prop :=
  ∀ (v : Word) (s : State), s.data = 0 →
    runBytes (encodeValue v) s = .next { s with
      data := v
      pc := s.pc + BitVec.ofNat 32 (encodeValue v).length }

/-- 40_encoder.md's length of a value load: `n(v)`, 1 to 6 bytes, and the bands of its table: `v` fits `n(v)` groups and,
where `n(v) > 1`, no fewer. -/
def Obligations.EncodedValueLengthIsMinimal : Prop :=
  ∀ v : Word, (encodeValue v).length = valueLength v ∧ 1 ≤ valueLength v ∧ valueLength v ≤ 6 ∧
    v.toNat < 64 ^ valueLength v ∧ (1 < valueLength v → 64 ^ (valueLength v - 1) ≤ v.toNat)

/-! ### The encoder -/

/-- R103 to R106, with the refusals of R114: a single-instruction encoder refuses exactly the operands outside its domain;
an accepted operand gives the byte of the rule, which decodes back to that operand. -/
def Obligations.SingleEncodersRefuseOutOfRange : Prop :=
  (∀ g : Nat, (63 < g → encodeData g = .error .operandRange) ∧
    (g ≤ 63 → ∃ b, encodeData g = .ok b ∧ b.toNat = 192 + g ∧ decode b = .data (BitVec.ofNat 6 g))) ∧
  (∀ t : Nat, (63 < t → encodeTool t = .error .operandRange) ∧
    (t ≤ 63 → ∃ b, encodeTool t = .ok b ∧ b.toNat = 128 + t ∧ decode b = decodeTool (BitVec.ofNat 6 t))) ∧
  (∀ d : Word, (d.toInt < -32 ∨ 31 < d.toInt → encodeDX d = .error .operandRange ∧ encodeDY d = .error .operandRange) ∧
    (-32 ≤ d.toInt → d.toInt ≤ 31 → ∃ b c n, encodeDX d = .ok b ∧ decode b = .dx n ∧
      encodeDY d = .ok c ∧ decode c = .dy n ∧ s6 n = d.toInt ∧
      (b.toNat : Int) = d.toInt % 64 ∧ (c.toNat : Int) = 64 + d.toInt % 64))

/-- R110's nine steps, decoded: the bytes of an accepted Rectangle are TOOL NONE, the loads and commits of its colour and
first corner, DY 0, those of its second corner, TOOL BLOCK, DY 0; and only a colour outside 0..255 is refused (R114). -/
def Obligations.RectangleBytesAreTheNineSteps : Prop :=
  ∀ r : Rect,
    ((r.colour < 0 ∨ 255 < r.colour) → encodeRectangle r = .error .operandRange) ∧
    (0 ≤ r.colour → r.colour ≤ 255 → ∃ bytes, encodeRectangle r = .ok bytes ∧
      decodeAll bytes =
        [.toolNone] ++ decodeAll (encodeValue (BitVec.ofInt 32 r.colour)) ++ [.toolColour]
          ++ decodeAll (encodeValue r.x1) ++ [.toolTargetX] ++ decodeAll (encodeValue r.y1) ++ [.toolTargetY] ++ [.dy 0]
          ++ decodeAll (encodeValue r.x2) ++ [.toolTargetX] ++ decodeAll (encodeValue r.y2) ++ [.toolTargetY]
          ++ [.toolBlock] ++ [.dy 0])

/-- 40_encoder.md's length of an encoded Rectangle (the spec's own inference): 9 bytes and its five value loads, so at least
14 and at most 35 bytes. -/
def Obligations.EncodedRectangleLength : Prop :=
  ∀ (r : Rect) (bytes : List Byte), encodeRectangle r = .ok bytes →
    bytes.length = 9 + valueLength (BitVec.ofInt 32 r.colour) + valueLength r.x1 + valueLength r.y1
      + valueLength r.x2 + valueLength r.y2 ∧ 14 ≤ bytes.length ∧ bytes.length ≤ 35

/-- R112: a Rectangle list is encoded as the concatenation of its Rectangles' bytes in list order, the empty list as the
empty program. That the list is refused exactly when one of its Rectangles is, is the model's choice (log entry 10). -/
def Obligations.ProgramBytesConcatenateRectangles : Prop :=
  encodeProgram [] = .ok [] ∧
  (∀ (a b : List Rect) (x y : List Byte), encodeProgram a = .ok x → encodeProgram b = .ok y →
    encodeProgram (a ++ b) = .ok (x ++ y)) ∧
  (∀ r : Rect, encodeProgram [r] = encodeRectangle r) ∧
  (∀ rects : List Rect, encodeProgram rects = .error .operandRange ↔
    ∃ r ∈ rects, encodeRectangle r = .error .operandRange)

/-- 40_encoder.md, "Effect of an encoded Rectangle" (the spec's own inference): "Run from any register state with
`CANVAS_FILL` arbitrary, and absent a `CanvasCapacityFault`", the bytes of a Rectangle leave exactly this state and these
cells. -/
def Obligations.EncodedRectangleDrawsItself : Prop :=
  ∀ (r : Rect) (bytes : List Byte) (s : State), encodeRectangle r = .ok bytes → ¬ pastCapacity s r.x2 r.y2 →
    ∃ t, runBytes bytes s = .next t ∧
      t = { s with
        tool := 2, colour := BitVec.ofInt 32 r.colour, data := 0,
        x := r.x2, tx := r.x2, y := r.y2, ty := r.y2,
        w := smax s.w r.x2, h := smax s.h r.y2,
        pc := s.pc + BitVec.ofNat 32 bytes.length,
        canvas := t.canvas,
        events := s.events ++ [.setColour (BitVec.ofInt 32 r.colour),
          .drawFilledRect r.x1 r.y1 (sub32 r.x2 r.x1) (sub32 r.y2 r.y1) (BitVec.ofInt 32 r.colour)] } ∧
      ∀ col row, readCell t col row =
        if inBounds (smax s.w r.x2) (smax s.h r.y2) col row then
          if r.covers col row then some (BitVec.ofInt 8 r.colour)
          else if inBounds s.w s.h col row then readCell s col row
          else some s.params.canvasFill
        else none

/-- 40_encoder.md, "Round trip" (the spec's own inference): let a Rectangle list partition a `W`×`H` raster that the canvas
can hold. A full-stream decode of its program ends normally with that raster on the canvas, cell for cell, whatever
`CANVAS_FILL` is; from any state that is about to run the program. That the stop is a move of its own, with an outcome, is the
model's choice (log entries 5 and 9). -/
def Obligations.DecodeOfEncodedRasterIsTheRaster : Prop :=
  ∀ (rects : List Rect) (W H : Nat) (C : Nat → Nat → Byte) (bytes : List Byte) (s : State),
    1 ≤ W → 1 ≤ H → Partitions rects W H C → encodeProgram rects = .ok bytes →
    bytes.length ≤ Config.progMaxLen → W ≤ s.params.canvasMaxW → H ≤ s.params.canvasMaxH →
    s.program = bytes →
    ∃ t, Sys2Proof.core.run (bytes.length + 1) (startFull s) = .next t ∧
      EndedNormally t ∧ t.w.toInt = W ∧ t.h.toInt = H ∧
      (∀ col row, readCell t col row = if col < W ∧ row < H then some (C col row) else none)

/-! ### The step and the invocations -/

/-- R124 and R125: where the step is enabled, it runs the instruction that the byte at `pc` decodes to, and then adds 1 to
`pc`; a fault ends the invocation and changes nothing else (R201). That `run` is then IDLE is the model's own reading (log
entry 6). The clause about a refusal says that none occurs. -/
def Obligations.StepRunsTheDecodedInstruction : Prop :=
  ∀ (s : State) (b : Byte), stepEnabled s = true → s.program[s.pc.toNat]? = some b →
    (∀ t, exec (decode b) s = .next t → step s = .next { t with pc := s.pc + 1 }) ∧
    (∀ f, exec (decode b) s = .fault f →
      step s = .next { s with run := .idle, outcome := some (Fault.ending f) }) ∧
    (∀ r, exec (decode b) s ≠ .refused r)

/-- R200 and R201 with R85: no instruction is ever refused, and an instruction faults only where it is a DY under BLOCK whose
target passes the canvas capacity. That every step answers a next state rests on the model's choices too: a step takes the
fault as a next state (log entry 6), and keeps the state where the machine is idle with no command pending (log entry 2). -/
def Obligations.OnlyBlockDyFaultsAndNothingStops : Prop :=
  (∀ s : State, ∃ t, step s = .next t) ∧
  (∀ (i : Instr) (s : State), (∃ f, exec i s = .fault f) ↔
    ∃ n, i = .dy n ∧ s.tool = 2 ∧ pastCapacity s s.tx (movedTy n s)) ∧
  (∀ (i : Instr) (s : State) (r : Refusal), exec i s ≠ .refused r)

/-- R201: the faulting DY's step is discarded whole, and the invocation ends `Faulted(1, pc, tx, ty)`. That `run` is then
IDLE is the model's own reading (log entry 6). -/
def Obligations.CapacityFaultEndsTheInvocation : Prop :=
  ∀ (s : State) (b : Byte) (n : U6), stepEnabled s = true → s.program[s.pc.toNat]? = some b → decode b = .dy n →
    s.tool = 2 → pastCapacity s s.tx (movedTy n s) →
    step s = .next { s with run := .idle, outcome := some (.faulted 1 s.pc s.tx (movedTy n s)) }

/-- R31 and R124: within an invocation a step leaves `pc` alone (it stopped) or adds 1 to it, and never touches it
otherwise; the invocation goes on exactly when it added 1. That the stop is a move of its own is the model's choice (log
entry 9), and that `run` is IDLE after a fault its own reading (log entry 6). -/
def Obligations.StepMovesPcByOneOrStops : Prop :=
  ∀ s t : State, s.run ≠ .idle → step s = .next t →
    (t.run = s.run ∧ t.pc = s.pc + 1 ∧ stepEnabled s = true) ∨ (t.run = .idle ∧ t.pc = s.pc)

/-- R53, R72 and R116: within an invocation no step changes program memory, the encoder's buffer or the parameters; and the
event output only grows, by at most one event (R60). -/
def Obligations.InvocationsOnlyAppendEvents : Prop :=
  ∀ s t : State, s.run ≠ .idle → step s = .next t →
    t.program = s.program ∧ t.buffer = s.buffer ∧ t.params = s.params ∧
    ∃ evs, t.events = s.events ++ evs ∧ evs.length ≤ 1

/-- The access matrix of R36, written column by column: which instruction may change each item of state. -/
def Obligations.EachRegisterHasOnlyItsWriters : Prop :=
  ∀ (i : Instr) (s t : State), exec i s = .next t →
    SameOutside s t ∧ t.pc = s.pc ∧
    ((∀ n, i ≠ .dy n) → t.x = s.x ∧ t.y = s.y) ∧
    ((∀ n, i ≠ .dx n) → i ≠ .toolTargetX → t.tx = s.tx) ∧
    ((∀ n, i ≠ .dy n) → i ≠ .toolTargetY → t.ty = s.ty) ∧
    ((∀ n, ¬ (i = .dy n ∧ s.tool = 2)) → SameCanvas s t) ∧
    (toolCode i = none → t.tool = s.tool) ∧
    (i ≠ .toolColour → t.colour = s.colour) ∧
    (toolCode i = none → isDirective i = false → (∀ g, i ≠ .data g) → t.data = s.data) ∧
    (i ≠ .toolNextFrame → SameFrame s t) ∧
    ((∀ n, ¬ (i = .dy n ∧ (s.tool = 1 ∨ s.tool = 2))) → i ≠ .toolColour → i ≠ .toolShow → i ≠ .toolPause →
      t.events = s.events)

/-- R29 and 42_motion.md ("Neither instruction reads or writes `data`, `frameStart` or `frameEnded`"): two states that
differ only in those three go through a DX or a DY alike. -/
def Obligations.MovesDoNotReadAccumulatorOrFrame : Prop :=
  ∀ (i : Instr) (n : U6) (s t : State) (d fs : Word) (fe : Bool), i = .dx n ∨ i = .dy n → exec i s = .next t →
    exec i { s with data := d, frameStart := fs, frameEnded := fe } =
      .next { t with data := d, frameStart := fs, frameEnded := fe }

/-- R36's note: a DY that is not a BLOCK draw does not read `colour`, the bounds or the canvas. -/
def Obligations.DyWithoutBlockIgnoresTheCanvas : Prop :=
  ∀ (n : U6) (s t : State) (c w h : Word) (m : Memory), s.tool ≠ 2 → exec (.dy n) s = .next t →
    exec (.dy n) { s with colour := c, w := w, h := h, canvas := m } =
      .next { t with colour := c, w := w, h := h, canvas := m }

/-- R171: the start of a full-stream decode zeroes the registers, the frame cursor and the canvas, and keeps `E`, `B` and
the program. (What becomes of the last invocation's outcome is left open here.) -/
def Obligations.StartFullZeroesEverything : Prop :=
  ∀ s : State, ∃ o, runCommand .startFull s = { s with
    x := 0, y := 0, tx := 0, ty := 0, w := 0, h := 0, tool := 0, colour := 0, data := 0, frameStart := 0,
    frameEnded := false, pc := 0, run := .full, canvas := [], outcome := o }

/-- R174: the start of a frame-step resets the transient registers, keeps the frame cursor, the bounds, the canvas and,
unless `FRAME_RESET_COLOUR`, the colour, and begins at `min(frameStart, L)`, for every program a host can load (R52). (What
becomes of the last invocation's outcome is left open here.) -/
def Obligations.StartFrameKeepsCursorAndCanvas : Prop :=
  ∀ s : State, s.program.length ≤ Config.progMaxLen →
    ∃ c p o, runCommand .startFrame s = { s with
      x := 0, y := 0, tx := 0, ty := 0, tool := 0, colour := c, data := 0, frameEnded := false, pc := p,
      run := .frame, outcome := o } ∧
    c = (if s.params.frameResetColour then 0 else s.colour) ∧
    p.toNat = min s.frameStart.toNat s.program.length

/-- R172's loop: a full-stream decode takes `Step` before the end of the stream and stops at it; `frameEnded` does not stop
it. That the stop is a move of its own, with an outcome, is the model's choice (log entries 5 and 9). -/
def Obligations.FullDecodeStopsOnlyAtEndOfStream : Prop :=
  ∀ s : State, s.run = .full →
    (s.program.length ≤ s.pc.toNat → step s = .next { s with run := .idle, outcome := some .normal }) ∧
    (s.pc.toNat < s.program.length →
      ∃ b, s.program[s.pc.toNat]? = some b ∧ stepEnabled s = true ∧ step s = stepByte b s)

/-- R175's loop and R176: a frame-step takes `Step` before the end of the stream and the end of the frame, stops at either,
and wraps the cursor to 0 only where `frameEnded` does not hold. That the stop is a move of its own, with an outcome, is the
model's choice (log entries 5 and 9). -/
def Obligations.FrameStepStopsAndWraps : Prop :=
  ∀ s : State, s.run = .frame →
    (s.frameEnded = true → step s = .next { s with run := .idle, outcome := some .normal }) ∧
    (s.frameEnded = false → s.program.length ≤ s.pc.toNat →
      step s = .next { s with frameStart := 0, run := .idle, outcome := some .normal }) ∧
    (s.frameEnded = false → s.pc.toNat < s.program.length →
      ∃ b, s.program[s.pc.toNat]? = some b ∧ stepEnabled s = true ∧ step s = stepByte b s)

/-- R172, "A full-stream decode of `L` bytes performs exactly `L` steps": where the bytes of the program run without a fault,
`L` steps from the start have their effect, and one more move stops the decode. That the stop is a move of its own, with an
outcome, is the model's choice (log entries 5 and 9). -/
def Obligations.FullDecodeRunsEveryByteOnce : Prop :=
  ∀ s t : State, s.run = .full → s.pc = 0 → s.program.length ≤ Config.progMaxLen →
    runBytes s.program s = .next t →
    Sys2Proof.core.run s.program.length s = .next t ∧ t.run = .full ∧ t.pc.toNat = s.program.length ∧
      step t = .next { t with run := .idle, outcome := some .normal }

/-- 45_run_control.md's frame sequence, one frame of it: from offset `p`, a frame-step whose bytes up to the first NEXTFRAME,
at offset `n`, run without a fault executes exactly those bytes and leaves the cursor at `n + 1`. That the stop is a move of
its own, with an outcome, is the model's choice (log entries 5 and 9). -/
def Obligations.FrameStepRunsToTheNextFrameByte : Prop :=
  ∀ (s t : State) (n : Nat), s.Inv → s.run = .frame → s.frameEnded = false → s.pc.toNat ≤ n →
    s.program[n]? = some 0x88 → (∀ k, s.pc.toNat ≤ k → k < n → s.program[k]? ≠ some 0x88) →
    runBytes ((s.program.take (n + 1)).drop s.pc.toNat) s = .next t →
    Sys2Proof.core.run (n + 2 - s.pc.toNat) s = .next { t with run := .idle, outcome := some .normal } ∧
      t.frameStart.toNat = n + 1 ∧ t.pc.toNat = n + 1 ∧ t.frameEnded = true

/-- 45_run_control.md's "Empty frame": a frame-step started past the end of the program executes nothing, leaves the canvas
and `E` alone, and wraps the cursor. That the start and the stop are each a move of their own, that the stop has an outcome,
and that the command comes from a queue are the model's choices (log entries 9, 5 and 2). -/
def Obligations.FrameStartedPastTheEndIsEmpty : Prop :=
  ∀ (s : State) (rest : List Command), s.run = .idle → s.commands = .startFrame :: rest →
    s.program.length ≤ s.frameStart.toNat → s.program.length ≤ Config.progMaxLen →
    ∃ t, Sys2Proof.core.run 2 s = .next t ∧ EndedNormally t ∧ t.frameStart = 0 ∧ t.pc.toNat = s.program.length ∧
      SameCanvas s t ∧ t.events = s.events ∧ t.commands = rest

/-- 45_run_control.md's termination: every invocation stops, normally or by a fault, within one move more than the bytes
left. That the stop is a move of its own, with an outcome, is the model's choice (log entries 5 and 9), and that `run` is IDLE
after a fault its own reading (log entry 6). -/
def Obligations.EveryInvocationStops : Prop :=
  ∀ s : State, s.Inv → s.run ≠ .idle →
    ∃ k t, k ≤ s.program.length - s.pc.toNat + 1 ∧ Sys2Proof.core.run k s = .next t ∧ t.run = .idle ∧
      (t.outcome = some .normal ∨ ∃ pc tx ty, t.outcome = some (.faulted 1 pc tx ty))

/-! ### The invariant -/

/-- R37, R54, R57, R30, R52 and R31 as one invariant: every step keeps it, the host's commands included. -/
def Obligations.EveryStepKeepsTheInvariant : Prop :=
  ∀ s t : State, s.Inv → step s = .next t → t.Inv

/-- The invariant holds after reset (R230). -/
def Obligations.ResetMeetsTheInvariant : Prop :=
  State.reset.Inv

/-! ### Reset and the host's commands -/

/-- R230: what power-on reset leaves, and that program memory is not touched. That the parameters, the pending commands and
the replies are kept is the model's choice (log entries 1 and 2). (What becomes of the last invocation's outcome is left open
here.) -/
def Obligations.ResetCommandZeroesAllButTheProgram : Prop :=
  ∀ s : State, ∃ o, runCommand .reset s = { s with
    x := 0, y := 0, tx := 0, ty := 0, w := 0, h := 0, tool := 0, colour := 0, data := 0, frameStart := 0,
    frameEnded := false, pc := 0, run := .idle, canvas := [], buffer := [], events := [], outcome := o }

/-- R214: between invocations a step is the host's next command, and within an invocation no command is taken (R170, R215).
That the pending commands stand in a queue is the model's own choice (log entry 2). -/
def Obligations.HostCommandsRunOnlyBetweenInvocations : Prop :=
  (∀ (s : State) (c : Command) (rest : List Command), s.run = .idle → s.commands = c :: rest →
    step s = .next (runCommand c { s with commands := rest })) ∧
  (∀ s t : State, s.run ≠ .idle → step s = .next t → t.commands = s.commands ∧ t.replies = s.replies)

/-- R214 with R52: `LoadProgram` replaces program memory and nothing else; a program longer than `PROG_MAX_LEN` is refused
and has no effect. The reply is the model's own (log entry 2). -/
def Obligations.LoadProgramReplacesProgramMemory : Prop :=
  ∀ (s : State) (bytes : List Byte),
    (bytes.length ≤ Config.progMaxLen → runCommand (.loadProgram bytes) s = { s with program := bytes }) ∧
    (Config.progMaxLen < bytes.length →
      runCommand (.loadProgram bytes) s = { s with replies := s.replies ++ [.refused .programTooLong] })

/-- R214: `ReadState`, `ReadCanvas` and `TakeEvents` return what the table says; the first two change nothing, the third
empties `E`. The replies are the model's own (log entry 2). -/
def Obligations.ReadCommandsReturnStateAndEvents : Prop :=
  ∀ s : State,
    (∃ f : RegFile, runCommand .readState s = { s with replies := s.replies ++ [.registers f] } ∧
      f.x = s.x ∧ f.y = s.y ∧ f.tx = s.tx ∧ f.ty = s.ty ∧ f.w = s.w ∧ f.h = s.h ∧ f.tool = s.tool ∧
      f.colour = s.colour ∧ f.data = s.data ∧ f.frameStart = s.frameStart ∧ f.frameEnded = s.frameEnded ∧
      f.pc = s.pc ∧ f.run = s.run) ∧
    runCommand .readCanvas s = { s with replies := s.replies ++ [.raster (serialiseCanvas s)] } ∧
    runCommand .takeEvents s = { s with events := [], replies := s.replies ++ [.eventList s.events] }

/-- R58: the serialised canvas is the header, with both bounds in decimal, and then the cells in row-major order. -/
def Obligations.CanvasReadoutIsTheRowMajorRaster : Prop :=
  ∀ s : State, 0 ≤ s.w.toInt → 0 ≤ s.h.toInt →
    ∃ (dw dh : List Nat) (cells : List Byte),
      serialiseCanvas s = [0x50, 0x35, 0x20] ++ dw.map (fun d => BitVec.ofNat 8 (48 + d)) ++ [0x20]
        ++ dh.map (fun d => BitVec.ofNat 8 (48 + d)) ++ [0x20, 0x32, 0x35, 0x35, 0x0A] ++ cells ∧
      (∀ d ∈ dw, d ≤ 9) ∧ (∀ d ∈ dh, d ≤ 9) ∧
      Nat.ofDigits 10 dw.reverse = s.w.toInt.toNat ∧ Nat.ofDigits 10 dh.reverse = s.h.toInt.toNat ∧
      dw ≠ [] ∧ dh ≠ [] ∧ (dw.head? = some 0 → dw = [0]) ∧ (dh.head? = some 0 → dh = [0]) ∧
      (cells.length : Int) = s.w.toInt * s.h.toInt ∧
      ∀ col row : Nat, inBounds s.w s.h col row = true → cells[row * s.w.toInt.toNat + col]? = readCell s col row

/-- R214 with R112, R114 and R202: `Encode` appends the encoded program to `B` and returns the whole of `B`. That a refused
list appends nothing at all is the model's own reading (log entry 10), and the reply is its choice (log entry 2). -/
def Obligations.EncodeCommandAppendsToTheBuffer : Prop :=
  ∀ (s : State) (rects : List Rect),
    (∀ bytes, encodeProgram rects = .ok bytes → runCommand (.encode rects) s = { s with
      buffer := s.buffer ++ bytes, replies := s.replies ++ [.encoded (s.buffer ++ bytes)] }) ∧
    (∀ e, encodeProgram rects = .error e → e = .operandRange ∧
      runCommand (.encode rects) s = { s with replies := s.replies ++ [.refused .operandRange] })

/-- R220: between invocations the machine keeps its whole state. That a step with no command pending is a move which keeps it
is the model's choice (log entry 2). -/
def Obligations.IdleMachineKeepsItsState : Prop :=
  ∀ s : State, s.run = .idle → s.commands = [] → step s = .next s

/-! ### The assembler -/

/-- R90: a line of one instruction assembles to its one byte, and an operand outside its range is an error. -/
def Obligations.AssembledLineIsItsInstruction : Prop :=
  (∀ n : Int, (-32 ≤ n → n ≤ 31 → ∃ m : U6, s6 m = n ∧
      assembleLine (.dx n) = .ok [encode (.dx m)] ∧ assembleLine (.dy n) = .ok [encode (.dy m)]) ∧
    (n < -32 ∨ 31 < n → assembleLine (.dx n) = .error .operandRange ∧ assembleLine (.dy n) = .error .operandRange)) ∧
  (∀ n : Int, (0 ≤ n → n ≤ 63 → ∃ u : U6, (u.toNat : Int) = n ∧
      assembleLine (.tool n) = .ok [assembleByte 0b10 u] ∧ assembleLine (.data n) = .ok [encode (.data u)]) ∧
    (n < 0 ∨ 63 < n → assembleLine (.tool n) = .error .operandRange ∧ assembleLine (.data n) = .error .operandRange))

/-- R91 to R94: the pseudo-instructions are the sequences they expand to. -/
def Obligations.PseudoInstructionsExpand : Prop :=
  (∀ v : Int, 0 ≤ v → v ≤ 4294967295 →
    assembleLine (.load v) = .ok (encodeValue (BitVec.ofInt 32 v)) ∧
    assembleLine (.setColour v) = assembleLines [.load v, .tool 3] ∧
    assembleLine (.wait v) = assembleLines [.load v, .tool 7]) ∧
  (∀ v : Int, -2147483648 ≤ v → v ≤ 2147483647 →
    assembleLine (.setTX v) = assembleLines [.load ((BitVec.ofInt 32 v).toNat : Int), .tool 4] ∧
    assembleLine (.setTY v) = assembleLines [.load ((BitVec.ofInt 32 v).toNat : Int), .tool 5]) ∧
  (∀ c x1 y1 x2 y2 : Int, 0 ≤ c → c ≤ 255 → isI32 x1 = true → isI32 y1 = true → isI32 x2 = true → isI32 y2 = true →
    assembleLine (.rect c x1 y1 x2 y2) =
      assembleLines [.tool 0, .setColour c, .setTX x1, .setTY y1, .dy 0, .setTX x2, .setTY y2, .tool 2, .dy 0]) ∧
  (∀ d : Int, -32 ≤ d → d ≤ 31 → assembleLine (.drawX d) = assembleLines [.dx d, .dy 0])
end

