-- ==== Sys2Proof/Laws/Arith.lean ====
section
/-! SUPPORT. The model's 32-bit operations agree with the integer readings that claims are stated in. -/

namespace Sys2Proof.Machine

theorem sext32_toInt (n : U6) : (sext32 n).toInt = s6 n := by
  revert n
  decide

theorem zext32_toNat (n : U6) : (zext32 n).toNat = n.toNat := by
  revert n
  decide

theorem add32_eq (a : Word) (n : U6) : add32 a (s6 n) = a + sext32 n := by
  rw [← sext32_toInt]
  simp [add32, BitVec.ofInt_add]

theorem add32_zero (a : Word) : add32 a (s6 0) = a := by
  simp [add32, s6]

theorem sub32_eq (a b : Word) : sub32 a b = a - b := by
  rw [← BitVec.toInt_inj, BitVec.toInt_sub, sub32, BitVec.toInt_ofInt]

theorem movedTy_eq (n : U6) (s : State) : movedTy n s = s.ty + sext32 n := add32_eq _ _

theorem toInt_eq_i32 (v : Word) : v.toInt = i32 v := by
  rw [i32, BitVec.toInt_eq_toNat_cond]
  split <;> split <;> omega

theorem pastCapacity_iff (s : State) (a b : Word) : pastCapacity s a b ↔ beyondCapacity s.params a b = true := by
  simp [pastCapacity, beyondCapacity]

theorem not_pastCapacity_iff (s : State) (a b : Word) : ¬ pastCapacity s a b ↔ beyondCapacity s.params a b = false := by
  rw [pastCapacity_iff]
  simp

/-- A shift by six with a fragment in the low bits is a multiplication by 64 and a sum. -/
theorem shift_or_fragment (d : Word) (g : U6) :
    (d <<< 6) ||| (zext32 g &&& 63) = BitVec.ofNat 32 (d.toNat * 64 + g.toNat) := by
  have hg : g.toNat < 2 ^ 6 := g.isLt
  have e : zext32 g &&& 63 = zext32 g := by
    revert g
    decide
  have h32 : g.toNat = g.toNat % 2 ^ 32 := by omega
  rw [e, ← BitVec.toNat_inj, BitVec.toNat_or, zext32_toNat, BitVec.toNat_shiftLeft, BitVec.toNat_ofNat, h32,
    ← Nat.or_mod_two_pow, ← Nat.shiftLeft_add_eq_or_of_lt hg, Nat.shiftLeft_eq]
  omega

/-- Offsets add up, whatever they wrap to. -/
theorem pc_add (pc : Word) (n m : Nat) :
    pc + BitVec.ofNat 32 n + BitVec.ofNat 32 m = pc + BitVec.ofNat 32 (n + m) := by
  rw [← BitVec.toNat_inj]
  simp only [BitVec.toNat_add, BitVec.toNat_ofNat]
  omega

end Sys2Proof.Machine
end

