-- ==== Sys2Proof/Laws/Memory.lean ====
section
/-! SUPPORT. The laws of cells: what a read sees after a write, and that every operation keeps the canonical form. -/

namespace Sys2Proof.Machine

/-! ### Reading -/

theorem Memory.read_insert_same (fill : Byte) (a : Nat) (v : Byte) (m : Memory) (h : ∀ c ∈ m, c.1 ≠ a) :
    Memory.read fill (Memory.insert a v m) a = v := by
  induction m with
  | nil => simp [Memory.insert, Memory.read]
  | cons c rest ih =>
    obtain ⟨b, u⟩ := c
    have hb : a ≠ b := fun e => h (b, u) (by simp) e.symm
    have ih := ih (fun c hc => h c (by simp [hc]))
    by_cases hlt : a < b <;> simp [Memory.insert, Memory.read, hlt, hb, ih]

theorem Memory.read_insert_other (fill : Byte) (a b : Nat) (v : Byte) (m : Memory) (h : b ≠ a) :
    Memory.read fill (Memory.insert a v m) b = Memory.read fill m b := by
  induction m with
  | nil => simp [Memory.insert, Memory.read, h]
  | cons c rest ih =>
    obtain ⟨e, u⟩ := c
    by_cases hlt : a < e <;> simp [Memory.insert, Memory.read, hlt, h, ih]

theorem Memory.read_keep (fill : Byte) (p : Nat → Bool) (m : Memory) (a : Nat) :
    Memory.read fill (Memory.keep p m) a = if p a then Memory.read fill m a else fill := by
  unfold Memory.keep
  induction m with
  | nil => simp [Memory.read]
  | cons c rest ih =>
    obtain ⟨b, u⟩ := c
    by_cases hab : a = b
    · subst hab
      by_cases hp : p a = true <;> simp_all [Memory.read]
    · by_cases hp : p b = true <;> simp_all [Memory.read]

theorem Memory.read_write_same (fill : Byte) (m : Memory) (a : Nat) (v : Byte) :
    Memory.read fill (Memory.write fill m a v) a = v := by
  unfold Memory.write
  split
  · simp_all [Memory.read_keep]
  · exact Memory.read_insert_same _ _ _ _ (by simp [Memory.keep])

theorem Memory.read_write_other (fill : Byte) (m : Memory) (a b : Nat) (v : Byte) (h : b ≠ a) :
    Memory.read fill (Memory.write fill m a v) b = Memory.read fill m b := by
  unfold Memory.write
  split <;> simp [Memory.read_insert_other, Memory.read_keep, h]

/-! ### The canonical form -/

theorem Memory.wf_cons (fill : Byte) (a : Nat) (v : Byte) (m : Memory) :
    Memory.wf fill ((a, v) :: m) = true ↔ v ≠ fill ∧ (∀ c ∈ m, a < c.1) ∧ Memory.wf fill m = true := by
  simp [Memory.wf, and_assoc]

theorem Memory.wf_keep (fill : Byte) (p : Nat → Bool) (m : Memory) (h : Memory.wf fill m = true) :
    Memory.wf fill (Memory.keep p m) = true := by
  unfold Memory.keep
  induction m with
  | nil => simpa using h
  | cons c rest ih =>
    obtain ⟨b, u⟩ := c
    obtain ⟨hu, hlt, hr⟩ := (Memory.wf_cons ..).1 h
    rw [List.filter_cons]
    split
    · exact (Memory.wf_cons ..).2 ⟨hu, fun c hc => hlt c (List.mem_of_mem_filter hc), ih hr⟩
    · exact ih hr

theorem Memory.mem_insert (a : Nat) (v : Byte) (m : Memory) (c : Host.Cell) :
    c ∈ Memory.insert a v m ↔ c = (a, v) ∨ c ∈ m := by
  induction m with
  | nil => simp [Memory.insert]
  | cons d rest ih =>
    obtain ⟨b, u⟩ := d
    by_cases hlt : a < b
    · simp [Memory.insert, hlt]
    · simp only [Memory.insert, hlt, if_false, List.mem_cons, ih]
      tauto

theorem Memory.wf_insert (fill : Byte) (a : Nat) (v : Byte) (m : Memory) (hv : v ≠ fill)
    (ha : ∀ c ∈ m, c.1 ≠ a) (h : Memory.wf fill m = true) : Memory.wf fill (Memory.insert a v m) = true := by
  induction m with
  | nil => simp [Memory.insert, Memory.wf, hv]
  | cons c rest ih =>
    obtain ⟨b, u⟩ := c
    obtain ⟨hu, hlt, hr⟩ := (Memory.wf_cons ..).1 h
    have hba : b ≠ a := ha (b, u) (by simp)
    unfold Memory.insert
    split
    · rename_i hab
      refine (Memory.wf_cons ..).2 ⟨hv, ?_, h⟩
      intro c hc
      obtain rfl | hc := List.mem_cons.1 hc
      · exact hab
      · exact lt_trans hab (hlt c hc)
    · rename_i hab
      refine (Memory.wf_cons ..).2 ⟨hu, ?_, ih (fun c hc => ha c (by simp [hc])) hr⟩
      intro c hc
      obtain rfl | hc := (Memory.mem_insert ..).1 hc
      · show b < a
        omega
      · exact hlt c hc

theorem Memory.wf_write (fill : Byte) (m : Memory) (a : Nat) (v : Byte) (h : Memory.wf fill m = true) :
    Memory.wf fill (Memory.write fill m a v) = true := by
  unfold Memory.write
  split
  · exact Memory.wf_keep _ _ _ h
  · exact Memory.wf_insert _ _ _ _ ‹_› (by simp [Memory.keep]) (Memory.wf_keep _ _ _ h)

/-- What a write can leave listed: an old cell, or the one written. -/
theorem Memory.mem_write (fill : Byte) (m : Memory) (a : Nat) (v : Byte) (c : Host.Cell)
    (h : c ∈ Memory.write fill m a v) : c.1 = a ∨ c ∈ m := by
  unfold Memory.write at h
  split at h
  · exact .inr (List.mem_of_mem_filter h)
  · obtain rfl | h := (Memory.mem_insert ..).1 h
    · exact .inl rfl
    · exact .inr (List.mem_of_mem_filter h)

end Sys2Proof.Machine
end

