-- ==== Sys2Proof/Laws/Canvas.lean ====
section
/-! SUPPORT. The laws of the canvas: coordinates, one cell's write, growth, a filled box, a BLOCK draw. -/

namespace Sys2Proof.Machine

/-! ### Coordinates -/

theorem toInt_lt_pitch (w : Word) : w.toInt < 2147483648 := by
  have := BitVec.toInt_lt (x := w)
  simpa using this

theorem le_toInt_pitch (w : Word) : -2147483648 ≤ w.toInt := by
  have := BitVec.le_toInt (x := w)
  simpa using this

theorem smax_toInt (a b : Word) : (smax a b).toInt = max a.toInt b.toInt := by
  unfold smax
  split <;> omega

theorem inBounds_iff (w h : Word) (col row : Nat) :
    inBounds w h col row = true ↔ (col : Int) < w.toInt ∧ (row : Int) < h.toInt := by
  simp [inBounds]

theorem inBox_iff (x y tx ty : Word) (col row : Nat) :
    inBox x y tx ty col row = true ↔
      x.toInt ≤ col ∧ (col : Int) < tx.toInt ∧ y.toInt ≤ row ∧ (row : Int) < ty.toInt := by
  simp [inBox, and_assoc]

theorem inBounds_col_lt {w h : Word} {col row : Nat} (hb : inBounds w h col row = true) : col < canvasPitch := by
  have := ((inBounds_iff ..).1 hb).1
  have := toInt_lt_pitch w
  unfold canvasPitch
  omega

theorem cellCol_cellAddr (col row : Nat) (h : col < canvasPitch) : cellCol (cellAddr col row) = col := by
  simp [cellCol, cellAddr, Nat.mod_eq_of_lt h]

theorem cellRow_cellAddr (col row : Nat) (h : col < canvasPitch) : cellRow (cellAddr col row) = row := by
  unfold cellRow cellAddr
  unfold canvasPitch at *
  omega

theorem cellAddr_inj {c r c' r' : Nat} (h : c < canvasPitch) (h' : c' < canvasPitch)
    (e : cellAddr c r = cellAddr c' r') : c = c' ∧ r = r' := by
  have h1 := cellCol_cellAddr c r h
  have h2 := cellRow_cellAddr c r h
  rw [e, cellCol_cellAddr _ _ h'] at h1
  rw [e, cellRow_cellAddr _ _ h'] at h2
  exact ⟨h1.symm, h2.symm⟩

/-- The loop bounds of R132 are the clipped half-open interval. -/
theorem mem_clippedRange (lo hi : Word) (n : Nat) :
    n ∈ clippedRange lo hi ↔ lo.toInt ≤ n ∧ (n : Int) < hi.toInt := by
  unfold clippedRange
  rw [List.mem_range'_1]
  omega

/-! ### One row, one box -/

theorem fillRow_frame (v : Byte) (row : Nat) (cols : List Nat) (s : State) :
    fillRow v row cols s = { s with canvas := (fillRow v row cols s).canvas } := by
  unfold fillRow
  induction cols generalizing s with
  | nil => rfl
  | cons c rest ih =>
    rw [List.foldl_cons, ih]
    rfl

theorem fillRow_params (v : Byte) (row : Nat) (cols : List Nat) (s : State) :
    (fillRow v row cols s).params = s.params := by
  rw [fillRow_frame]

theorem read_fillRow (v : Byte) (row : Nat) (cols : List Nat) (s : State) (a : Nat) :
    Memory.read s.params.canvasFill (fillRow v row cols s).canvas a =
      if ∃ col ∈ cols, a = cellAddr col row then v else Memory.read s.params.canvasFill s.canvas a := by
  induction cols generalizing s with
  | nil => simp [fillRow]
  | cons c rest ih =>
    have h := ih (canvasWrite c row v s)
    have e : fillRow v row (c :: rest) s = fillRow v row rest (canvasWrite c row v s) := rfl
    rw [e]
    refine h.trans ?_
    by_cases hr : ∃ col ∈ rest, a = cellAddr col row
    · obtain ⟨col, hc, ha⟩ := hr
      rw [if_pos ⟨col, hc, ha⟩, if_pos ⟨col, by simp [hc], ha⟩]
    · rw [if_neg hr]
      by_cases hc : a = cellAddr c row
      · subst hc
        rw [if_pos ⟨c, by simp, rfl⟩]
        exact Memory.read_write_same ..
      · rw [if_neg (by simpa [hc] using hr)]
        exact Memory.read_write_other _ _ _ _ _ hc

theorem fillBox_frame (v : Byte) (rows cols : List Nat) (s : State) :
    fillBox v rows cols s = { s with canvas := (fillBox v rows cols s).canvas } := by
  induction rows generalizing s with
  | nil => rfl
  | cons r rest ih =>
    have e : fillBox v (r :: rest) cols s = fillBox v rest cols (fillRow v r cols s) := rfl
    rw [e, ih, fillRow_frame]

theorem read_fillBox (v : Byte) (rows cols : List Nat) (s : State) (a : Nat) :
    Memory.read s.params.canvasFill (fillBox v rows cols s).canvas a =
      if ∃ row ∈ rows, ∃ col ∈ cols, a = cellAddr col row then v
      else Memory.read s.params.canvasFill s.canvas a := by
  induction rows generalizing s with
  | nil => simp [fillBox]
  | cons r rest ih =>
    have h := ih (fillRow v r cols s)
    have e : fillBox v (r :: rest) cols s = fillBox v rest cols (fillRow v r cols s) := rfl
    rw [fillRow_params] at h
    rw [e, h, read_fillRow]
    by_cases hr : ∃ row ∈ rest, ∃ col ∈ cols, a = cellAddr col row
    · obtain ⟨row, hrow, hc⟩ := hr
      rw [if_pos ⟨row, hrow, hc⟩, if_pos ⟨row, by simp [hrow], hc⟩]
    · rw [if_neg hr]
      by_cases hc : ∃ col ∈ cols, a = cellAddr col r
      · rw [if_pos hc, if_pos ⟨r, by simp, hc⟩]
      · rw [if_neg hc, if_neg]
        rintro ⟨row, hrow, hx⟩
        obtain rfl | hrow := List.mem_cons.1 hrow
        · exact hc hx
        · exact hr ⟨row, hrow, hx⟩

theorem wf_fillBox (v : Byte) (rows cols : List Nat) (s : State)
    (h : Memory.wf s.params.canvasFill s.canvas = true) :
    Memory.wf s.params.canvasFill (fillBox v rows cols s).canvas = true := by
  have row_wf : ∀ (cols : List Nat) (row : Nat) (s : State), Memory.wf s.params.canvasFill s.canvas = true →
      Memory.wf s.params.canvasFill (fillRow v row cols s).canvas = true := by
    intro cols row
    induction cols with
    | nil => exact fun _ h => h
    | cons c rest ih => exact fun s h => ih (canvasWrite c row v s) (Memory.wf_write _ _ _ _ h)
  induction rows generalizing s with
  | nil => exact h
  | cons r rest ih =>
    have := ih (fillRow v r cols s) (by rw [fillRow_params]; exact row_wf cols r s h)
    rwa [fillRow_params] at this

/-- What a filled box can leave listed. -/
theorem mem_fillBox (v : Byte) (rows cols : List Nat) (s : State) (c : Host.Cell)
    (h : c ∈ (fillBox v rows cols s).canvas) :
    (∃ row ∈ rows, ∃ col ∈ cols, c.1 = cellAddr col row) ∨ c ∈ s.canvas := by
  have row_mem : ∀ (cols : List Nat) (row : Nat) (s : State), c ∈ (fillRow v row cols s).canvas →
      (∃ col ∈ cols, c.1 = cellAddr col row) ∨ c ∈ s.canvas := by
    intro cols row
    induction cols with
    | nil => exact fun _ h => .inr h
    | cons d rest ih =>
      intro s h
      obtain ⟨col, hc, e⟩ | h := ih (canvasWrite d row v s) h
      · exact .inl ⟨col, by simp [hc], e⟩
      · obtain e | h := Memory.mem_write _ _ _ _ _ h
        · exact .inl ⟨d, by simp, e⟩
        · exact .inr h
  induction rows generalizing s with
  | nil => exact .inr h
  | cons r rest ih =>
    obtain ⟨row, hr, hx⟩ | h := ih (fillRow v r cols s) h
    · exact .inl ⟨row, by simp [hr], hx⟩
    · obtain hx | h := row_mem cols r s h
      · exact .inl ⟨r, by simp, hx⟩
      · exact .inr h

/-! ### A BLOCK draw -/

/-- Everything `blockDraw` can do: raise the capacity fault, or grow, fill and emit. -/
theorem blockDraw_cases (s : State) :
    (beyondCapacity s.params s.tx s.ty = true ∧ blockDraw s = .error (.canvasCapacity s.pc s.tx s.ty)) ∨
    (beyondCapacity s.params s.tx s.ty = false ∧ ∃ t, blockDraw s = .ok t ∧
      t = { s with
        w := smax s.w s.tx
        h := smax s.h s.ty
        canvas := t.canvas
        events := s.events ++ [.drawFilledRect s.x s.y (s.tx - s.x) (s.ty - s.y) s.colour] } ∧
      t.canvas = (fillBox (s.colour.setWidth 8) (clippedRange s.y s.ty) (clippedRange s.x s.tx)
        (canvasEnlarge s.tx s.ty s)).canvas) := by
  by_cases hb : beyondCapacity s.params s.tx s.ty = true
  · exact .inl ⟨hb, by simp [blockDraw, canvasGrow, hb]⟩
  · simp only [Bool.not_eq_true] at hb
    refine .inr ⟨hb, emit (.drawFilledRect s.x s.y (s.tx - s.x) (s.ty - s.y) s.colour)
      (fillBox (s.colour.setWidth 8) (clippedRange s.y s.ty) (clippedRange s.x s.tx) (canvasEnlarge s.tx s.ty s)),
      by simp [blockDraw, canvasGrow, hb], ?_, rfl⟩
    rw [fillBox_frame]
    rfl

theorem beyondCapacity_eq_false (p : Config.Params) (nw nh : Word) :
    beyondCapacity p nw nh = false ↔ nw.toInt ≤ p.canvasMaxW ∧ nh.toInt ≤ p.canvasMaxH := by
  simp [beyondCapacity]

/-- The cells a BLOCK draw leaves (R56, R132). -/
theorem readCell_blockDraw {s t : State} (h : blockDraw s = .ok t) (col row : Nat) :
    readCell t col row = drawnCell s s.x s.y s.tx s.ty col row := by
  obtain ⟨-, e⟩ | ⟨-, t', e, ht, hc⟩ := blockDraw_cases s
  · simp [e] at h
  · obtain rfl : t' = t := by simpa [e] using h
    have hw : t'.w = smax s.w s.tx := by rw [ht]
    have hh : t'.h = smax s.h s.ty := by rw [ht]
    have hp : t'.params = s.params := by rw [ht]
    unfold readCell drawnCell
    rw [hw, hh, hp, hc]
    by_cases hb : inBounds (smax s.w s.tx) (smax s.h s.ty) col row = true
    · rw [if_pos hb, if_pos hb]
      have hcol := inBounds_col_lt hb
      have hr := read_fillBox (s.colour.setWidth 8) (clippedRange s.y s.ty) (clippedRange s.x s.tx)
        (canvasEnlarge s.tx s.ty s) (cellAddr col row)
      have hk : (canvasEnlarge s.tx s.ty s).params = s.params := rfl
      rw [hk] at hr
      rw [hr]
      by_cases hx : inBox s.x s.y s.tx s.ty col row = true
      · obtain ⟨h1, h2, h3, h4⟩ := (inBox_iff ..).1 hx
        rw [if_pos hx, if_pos ⟨row, (mem_clippedRange ..).2 ⟨h3, h4⟩, col, (mem_clippedRange ..).2 ⟨h1, h2⟩, rfl⟩]
      · rw [if_neg hx, if_neg]
        · have he : (canvasEnlarge s.tx s.ty s).canvas =
              Memory.keep (fun a => inBounds s.w s.h (cellCol a) (cellRow a)) s.canvas := rfl
          rw [he, Memory.read_keep, cellCol_cellAddr _ _ hcol, cellRow_cellAddr _ _ hcol]
          by_cases ho : inBounds s.w s.h col row = true <;> simp [ho, readCell]
        · rintro ⟨row', hr', col', hc', e⟩
          obtain ⟨h3, h4⟩ := (mem_clippedRange ..).1 hr'
          obtain ⟨h1, h2⟩ := (mem_clippedRange ..).1 hc'
          have hcol' : col' < canvasPitch := by
            have := toInt_lt_pitch s.tx
            unfold canvasPitch
            omega
          obtain ⟨rfl, rfl⟩ := cellAddr_inj hcol hcol' e
          exact hx ((inBox_iff ..).2 ⟨h1, h2, h3, h4⟩)
    · rw [if_neg hb, if_neg hb]

/-- What a filled box leaves depends on the cells and the parameters alone. -/
theorem fillRow_congr (v : Byte) (row : Nat) (cols : List Nat) {s t : State} (hc : s.canvas = t.canvas)
    (hp : s.params = t.params) : (fillRow v row cols s).canvas = (fillRow v row cols t).canvas := by
  induction cols generalizing s t with
  | nil => exact hc
  | cons c r ih => exact ih (by simp [canvasWrite, hc, hp]) (by simp [canvasWrite, hp])

theorem fillBox_congr (v : Byte) (rows cols : List Nat) {s t : State} (hc : s.canvas = t.canvas)
    (hp : s.params = t.params) : (fillBox v rows cols s).canvas = (fillBox v rows cols t).canvas := by
  induction rows generalizing s t with
  | nil => exact hc
  | cons c r ih => exact ih (fillRow_congr _ _ _ hc hp) (by rw [fillRow_params, fillRow_params, hp])

/-- A cell that stays outside the box keeps its byte. -/
theorem drawnCell_old {s : State} {x y tx ty : Word} {col row : Nat} (h : inBounds s.w s.h col row = true)
    (hb : ¬ inBox x y tx ty col row = true) : drawnCell s x y tx ty col row = readCell s col row := by
  have hn : inBounds (smax s.w tx) (smax s.h ty) col row = true := by
    rw [inBounds_iff] at *
    rw [smax_toInt, smax_toInt]
    omega
  unfold drawnCell
  rw [if_pos hn, if_neg hb, if_pos h]

end Sys2Proof.Machine
end

