-- ==== Sys2Proof/Laws/Decode.lean ====
section
/-! SUPPORT. The laws of the decoder and of the encoder of one instruction. -/

namespace Sys2Proof

@[simp] theorem opField_assembleByte (op : BitVec 2) (imm : U6) : opField (assembleByte op imm) = op := by
  revert op imm
  decide

@[simp] theorem immField_assembleByte (op : BitVec 2) (imm : U6) : immField (assembleByte op imm) = imm := by
  revert op imm
  decide

theorem assembleByte_fields (b : Byte) : assembleByte (opField b) (immField b) = b := by
  revert b
  decide

/-- Every opcode's byte decodes by its opcode alone. -/
theorem decode_assembleByte (op : BitVec 2) (imm : U6) :
    decode (assembleByte op imm) =
      if op = 0b00#2 then .dx imm else if op = 0b01#2 then .dy imm else if op = 0b10#2 then decodeTool imm
      else .data imm := by
  simp only [decode, opField_assembleByte, immField_assembleByte]

theorem decodeTool_raw10 (t : U6) (h : (Instr.toolRaw10 t).wf = true) : decodeTool t = .toolRaw10 t := by
  revert t
  decide

theorem decodeTool_raw12 (t : U6) (h : (Instr.toolRaw12 t).wf = true) : decodeTool t = .toolRaw12 t := by
  revert t
  decide

theorem decodeTool_raw16 (t : U6) (h : (Instr.toolRaw16 t).wf = true) : decodeTool t = .toolRaw16 t := by
  revert t
  decide

theorem decodeTool_raw32 (t : U6) (h : (Instr.toolRaw32 t).wf = true) : decodeTool t = .toolRaw32 t := by
  revert t
  decide

/-- What the decoder answers is always an instruction of its opcode-table row. -/
theorem decode_wf (b : Byte) : (decode b).wf = true := by
  revert b
  decide

/-- A decoded byte encodes back to itself. -/
theorem encode_of_decode (b : Byte) : encode (decode b) = b := by
  revert b
  decide

@[simp] theorem decodeAll_nil : decodeAll [] = [] := rfl

@[simp] theorem decodeAll_cons (b : Byte) (rest : List Byte) : decodeAll (b :: rest) = decode b :: decodeAll rest := rfl

@[simp] theorem encodeAll_nil : encodeAll [] = [] := rfl

@[simp] theorem encodeAll_cons (i : Instr) (rest : List Instr) : encodeAll (i :: rest) = encode i :: encodeAll rest := rfl

end Sys2Proof
end

