-- ==== Sys2Proof/Laws/Encoder.lean ====
section
/-! SUPPORT. The laws of the encoder: the groups of a value, their number and their value, and the shape of an encoded
list. -/

namespace Sys2Proof.Machine

/-! ### The groups of a value -/

/-- The fragments of `v` from group `k` down to group 0 (R101). -/
def groups (v : Word) : Nat → List U6
  | 0 => [valueGroup v 0]
  | k + 1 => valueGroup v (k + 1) :: groups v k

theorem groupsDown_eq (v : Word) (k : Nat) : groupsDown v k = (groups v k).map (fun g => encode (.data g)) := by
  have e : ∀ g : U6, groupByte g = encode (.data g) := by decide
  induction k with
  | zero => simp [groupsDown, groups, e]
  | succ k ih => simp [groupsDown, groups, e, ih]

theorem groups_length (v : Word) (k : Nat) : (groups v k).length = k + 1 := by
  induction k with
  | zero => rfl
  | succ k ih => simp [groups, ih]

theorem valueGroup_toNat (v : Word) (k : Nat) : (valueGroup v k).toNat = v.toNat / 2 ^ (6 * k) % 64 := by
  simp [valueGroup, Nat.shiftRight_eq_div_pow]

/-- The groups are the base-64 digits. -/
theorem groups_value (v : Word) (k : Nat) :
    Nat.ofDigits 64 ((groups v k).map (fun g => g.toNat)).reverse = v.toNat % 64 ^ (k + 1) := by
  induction k with
  | zero => simp [groups, valueGroup_toNat]
  | succ k ih =>
    simp only [groups, List.map_cons, List.reverse_cons, Nat.ofDigits_append, ih, List.length_reverse, List.length_map,
      groups_length, Nat.ofDigits_singleton, valueGroup_toNat]
    rw [pow_mul, show (2 : Nat) ^ 6 = 64 from rfl, Nat.mod_pow_succ (k := k + 1)]

/-- The first group sent: the value fits the groups from it down, and needs it where it is not group 0. -/
theorem firstGroup_spec (v : Word) :
    firstGroup v ≤ 5 ∧ v.toNat < 64 ^ (firstGroup v + 1) ∧ (0 < firstGroup v → 64 ^ firstGroup v ≤ v.toNat) := by
  have hv := v.isLt
  have h (k) : valueGroup v k ≠ 0 ↔ v.toNat / 2 ^ (6 * k) % 64 ≠ 0 := by
    rw [← valueGroup_toNat, ne_eq, ← BitVec.toNat_inj]
    rfl
  simp only [firstGroup, h]
  split
  · simp; omega
  split
  · simp; omega
  split
  · simp; omega
  split
  · simp; omega
  split
  · simp; omega
  · simp; omega

theorem encodeValue_length (v : Word) : (encodeValue v).length = firstGroup v + 1 := by
  simp [encodeValue, groupsDown_eq, groups_length]

theorem encodeLoadCommit_length (v : Word) (c : Commit) :
    (encodeLoadCommit v c).length = (encodeValue v).length + 1 := by
  simp [encodeLoadCommit]

theorem valueLength_eq (v : Word) : valueLength v = firstGroup v + 1 := by
  obtain ⟨-, h2, h3⟩ := firstGroup_spec v
  unfold valueLength bitLength
  by_cases hv : v = 0
  · subst hv
    decide
  · have h0 : v.toNat ≠ 0 := fun e => hv (by rw [← BitVec.toNat_inj]; exact e)
    rw [if_neg hv, if_neg hv]
    have a1 : Nat.log2 v.toNat < 6 * (firstGroup v + 1) := by
      rw [Nat.log2_lt h0, pow_mul]
      exact h2
    have a2 : 0 < firstGroup v → 6 * firstGroup v ≤ Nat.log2 v.toNat := by
      intro hp
      rw [Nat.le_log2 h0, pow_mul]
      exact h3 hp
    omega

/-! ### Lists -/

theorem decodeAll_append (a b : List Byte) : decodeAll (a ++ b) = decodeAll a ++ decodeAll b := by
  induction a with
  | nil => rfl
  | cons x r ih => simp [ih]

theorem encodeRectangle_error {r : Rect} {e : Refusal} (h : encodeRectangle r = .error e) : e = .operandRange := by
  unfold encodeRectangle at h
  split at h <;> simp_all

theorem encodeProgram_cons_ok {r : Rect} {rest : List Rect} {x y : List Byte} (h : encodeRectangle r = .ok x)
    (h' : encodeProgram rest = .ok y) : encodeProgram (r :: rest) = .ok (x ++ y) := by
  simp [encodeProgram, h, h']

theorem encodeProgram_cons_inv {r : Rect} {rest : List Rect} {z : List Byte} (h : encodeProgram (r :: rest) = .ok z) :
    ∃ x y, encodeRectangle r = .ok x ∧ encodeProgram rest = .ok y ∧ z = x ++ y := by
  unfold encodeProgram at h
  split at h
  · cases h
  · split at h
    · cases h
    · cases h
      exact ⟨_, _, ‹_›, ‹_›, rfl⟩

end Sys2Proof.Machine
end

