-- ==== Sys2Proof/Laws/State.lean ====
section
/-! SUPPORT. What each named update of State does to each field. -/

namespace Sys2Proof.Machine

/-! ### `canvasWrite`. `CanvasWrite` (R55) changes one cell and no register. -/

@[simp] theorem canvasWrite_x (col row : Nat) (v : Byte) (s : State) : (canvasWrite col row v s).x = s.x := rfl
@[simp] theorem canvasWrite_y (col row : Nat) (v : Byte) (s : State) : (canvasWrite col row v s).y = s.y := rfl
@[simp] theorem canvasWrite_tx (col row : Nat) (v : Byte) (s : State) : (canvasWrite col row v s).tx = s.tx := rfl
@[simp] theorem canvasWrite_ty (col row : Nat) (v : Byte) (s : State) : (canvasWrite col row v s).ty = s.ty := rfl
@[simp] theorem canvasWrite_w (col row : Nat) (v : Byte) (s : State) : (canvasWrite col row v s).w = s.w := rfl
@[simp] theorem canvasWrite_h (col row : Nat) (v : Byte) (s : State) : (canvasWrite col row v s).h = s.h := rfl
@[simp] theorem canvasWrite_tool (col row : Nat) (v : Byte) (s : State) : (canvasWrite col row v s).tool = s.tool := rfl
@[simp] theorem canvasWrite_colour (col row : Nat) (v : Byte) (s : State) : (canvasWrite col row v s).colour = s.colour := rfl
@[simp] theorem canvasWrite_data (col row : Nat) (v : Byte) (s : State) : (canvasWrite col row v s).data = s.data := rfl
@[simp] theorem canvasWrite_frameStart (col row : Nat) (v : Byte) (s : State) : (canvasWrite col row v s).frameStart = s.frameStart := rfl
@[simp] theorem canvasWrite_frameEnded (col row : Nat) (v : Byte) (s : State) : (canvasWrite col row v s).frameEnded = s.frameEnded := rfl
@[simp] theorem canvasWrite_pc (col row : Nat) (v : Byte) (s : State) : (canvasWrite col row v s).pc = s.pc := rfl
@[simp] theorem canvasWrite_run (col row : Nat) (v : Byte) (s : State) : (canvasWrite col row v s).run = s.run := rfl
@[simp] theorem canvasWrite_canvas (col row : Nat) (v : Byte) (s : State) : (canvasWrite col row v s).canvas = Memory.write s.params.canvasFill s.canvas (cellAddr col row) v := rfl
@[simp] theorem canvasWrite_program (col row : Nat) (v : Byte) (s : State) : (canvasWrite col row v s).program = s.program := rfl
@[simp] theorem canvasWrite_buffer (col row : Nat) (v : Byte) (s : State) : (canvasWrite col row v s).buffer = s.buffer := rfl
@[simp] theorem canvasWrite_events (col row : Nat) (v : Byte) (s : State) : (canvasWrite col row v s).events = s.events := rfl
@[simp] theorem canvasWrite_outcome (col row : Nat) (v : Byte) (s : State) : (canvasWrite col row v s).outcome = s.outcome := rfl
@[simp] theorem canvasWrite_params (col row : Nat) (v : Byte) (s : State) : (canvasWrite col row v s).params = s.params := rfl
@[simp] theorem canvasWrite_commands (col row : Nat) (v : Byte) (s : State) : (canvasWrite col row v s).commands = s.commands := rfl
@[simp] theorem canvasWrite_replies (col row : Nat) (v : Byte) (s : State) : (canvasWrite col row v s).replies = s.replies := rfl

/-! ### `canvasEnlarge`. `CanvasGrow` within the capacity (R56) changes the bounds and the new cells. -/

@[simp] theorem canvasEnlarge_x (nw nh : Word) (s : State) : (canvasEnlarge nw nh s).x = s.x := rfl
@[simp] theorem canvasEnlarge_y (nw nh : Word) (s : State) : (canvasEnlarge nw nh s).y = s.y := rfl
@[simp] theorem canvasEnlarge_tx (nw nh : Word) (s : State) : (canvasEnlarge nw nh s).tx = s.tx := rfl
@[simp] theorem canvasEnlarge_ty (nw nh : Word) (s : State) : (canvasEnlarge nw nh s).ty = s.ty := rfl
@[simp] theorem canvasEnlarge_w (nw nh : Word) (s : State) : (canvasEnlarge nw nh s).w = smax s.w nw := rfl
@[simp] theorem canvasEnlarge_h (nw nh : Word) (s : State) : (canvasEnlarge nw nh s).h = smax s.h nh := rfl
@[simp] theorem canvasEnlarge_tool (nw nh : Word) (s : State) : (canvasEnlarge nw nh s).tool = s.tool := rfl
@[simp] theorem canvasEnlarge_colour (nw nh : Word) (s : State) : (canvasEnlarge nw nh s).colour = s.colour := rfl
@[simp] theorem canvasEnlarge_data (nw nh : Word) (s : State) : (canvasEnlarge nw nh s).data = s.data := rfl
@[simp] theorem canvasEnlarge_frameStart (nw nh : Word) (s : State) : (canvasEnlarge nw nh s).frameStart = s.frameStart := rfl
@[simp] theorem canvasEnlarge_frameEnded (nw nh : Word) (s : State) : (canvasEnlarge nw nh s).frameEnded = s.frameEnded := rfl
@[simp] theorem canvasEnlarge_pc (nw nh : Word) (s : State) : (canvasEnlarge nw nh s).pc = s.pc := rfl
@[simp] theorem canvasEnlarge_run (nw nh : Word) (s : State) : (canvasEnlarge nw nh s).run = s.run := rfl
@[simp] theorem canvasEnlarge_canvas (nw nh : Word) (s : State) : (canvasEnlarge nw nh s).canvas = Memory.keep (fun a => inBounds s.w s.h (cellCol a) (cellRow a)) s.canvas := rfl
@[simp] theorem canvasEnlarge_program (nw nh : Word) (s : State) : (canvasEnlarge nw nh s).program = s.program := rfl
@[simp] theorem canvasEnlarge_buffer (nw nh : Word) (s : State) : (canvasEnlarge nw nh s).buffer = s.buffer := rfl
@[simp] theorem canvasEnlarge_events (nw nh : Word) (s : State) : (canvasEnlarge nw nh s).events = s.events := rfl
@[simp] theorem canvasEnlarge_outcome (nw nh : Word) (s : State) : (canvasEnlarge nw nh s).outcome = s.outcome := rfl
@[simp] theorem canvasEnlarge_params (nw nh : Word) (s : State) : (canvasEnlarge nw nh s).params = s.params := rfl
@[simp] theorem canvasEnlarge_commands (nw nh : Word) (s : State) : (canvasEnlarge nw nh s).commands = s.commands := rfl
@[simp] theorem canvasEnlarge_replies (nw nh : Word) (s : State) : (canvasEnlarge nw nh s).replies = s.replies := rfl

/-! ### `emit`. `Emit` (R60) appends to `E` and changes nothing else. -/

@[simp] theorem emit_x (ev : Event) (s : State) : (emit ev s).x = s.x := rfl
@[simp] theorem emit_y (ev : Event) (s : State) : (emit ev s).y = s.y := rfl
@[simp] theorem emit_tx (ev : Event) (s : State) : (emit ev s).tx = s.tx := rfl
@[simp] theorem emit_ty (ev : Event) (s : State) : (emit ev s).ty = s.ty := rfl
@[simp] theorem emit_w (ev : Event) (s : State) : (emit ev s).w = s.w := rfl
@[simp] theorem emit_h (ev : Event) (s : State) : (emit ev s).h = s.h := rfl
@[simp] theorem emit_tool (ev : Event) (s : State) : (emit ev s).tool = s.tool := rfl
@[simp] theorem emit_colour (ev : Event) (s : State) : (emit ev s).colour = s.colour := rfl
@[simp] theorem emit_data (ev : Event) (s : State) : (emit ev s).data = s.data := rfl
@[simp] theorem emit_frameStart (ev : Event) (s : State) : (emit ev s).frameStart = s.frameStart := rfl
@[simp] theorem emit_frameEnded (ev : Event) (s : State) : (emit ev s).frameEnded = s.frameEnded := rfl
@[simp] theorem emit_pc (ev : Event) (s : State) : (emit ev s).pc = s.pc := rfl
@[simp] theorem emit_run (ev : Event) (s : State) : (emit ev s).run = s.run := rfl
@[simp] theorem emit_canvas (ev : Event) (s : State) : (emit ev s).canvas = s.canvas := rfl
@[simp] theorem emit_program (ev : Event) (s : State) : (emit ev s).program = s.program := rfl
@[simp] theorem emit_buffer (ev : Event) (s : State) : (emit ev s).buffer = s.buffer := rfl
@[simp] theorem emit_events (ev : Event) (s : State) : (emit ev s).events = s.events ++ [ev] := rfl
@[simp] theorem emit_outcome (ev : Event) (s : State) : (emit ev s).outcome = s.outcome := rfl
@[simp] theorem emit_params (ev : Event) (s : State) : (emit ev s).params = s.params := rfl
@[simp] theorem emit_commands (ev : Event) (s : State) : (emit ev s).commands = s.commands := rfl
@[simp] theorem emit_replies (ev : Event) (s : State) : (emit ev s).replies = s.replies := rfl

/-! ### `advancePc`. The step's last action (R124). -/

@[simp] theorem advancePc_x (s : State) : (advancePc s).x = s.x := rfl
@[simp] theorem advancePc_y (s : State) : (advancePc s).y = s.y := rfl
@[simp] theorem advancePc_tx (s : State) : (advancePc s).tx = s.tx := rfl
@[simp] theorem advancePc_ty (s : State) : (advancePc s).ty = s.ty := rfl
@[simp] theorem advancePc_w (s : State) : (advancePc s).w = s.w := rfl
@[simp] theorem advancePc_h (s : State) : (advancePc s).h = s.h := rfl
@[simp] theorem advancePc_tool (s : State) : (advancePc s).tool = s.tool := rfl
@[simp] theorem advancePc_colour (s : State) : (advancePc s).colour = s.colour := rfl
@[simp] theorem advancePc_data (s : State) : (advancePc s).data = s.data := rfl
@[simp] theorem advancePc_frameStart (s : State) : (advancePc s).frameStart = s.frameStart := rfl
@[simp] theorem advancePc_frameEnded (s : State) : (advancePc s).frameEnded = s.frameEnded := rfl
@[simp] theorem advancePc_pc (s : State) : (advancePc s).pc = s.pc + 1 := rfl
@[simp] theorem advancePc_run (s : State) : (advancePc s).run = s.run := rfl
@[simp] theorem advancePc_canvas (s : State) : (advancePc s).canvas = s.canvas := rfl
@[simp] theorem advancePc_program (s : State) : (advancePc s).program = s.program := rfl
@[simp] theorem advancePc_buffer (s : State) : (advancePc s).buffer = s.buffer := rfl
@[simp] theorem advancePc_events (s : State) : (advancePc s).events = s.events := rfl
@[simp] theorem advancePc_outcome (s : State) : (advancePc s).outcome = s.outcome := rfl
@[simp] theorem advancePc_params (s : State) : (advancePc s).params = s.params := rfl
@[simp] theorem advancePc_commands (s : State) : (advancePc s).commands = s.commands := rfl
@[simp] theorem advancePc_replies (s : State) : (advancePc s).replies = s.replies := rfl

/-! ### `clearData`. The last action of every TOOL (R140). -/

@[simp] theorem clearData_x (s : State) : (clearData s).x = s.x := rfl
@[simp] theorem clearData_y (s : State) : (clearData s).y = s.y := rfl
@[simp] theorem clearData_tx (s : State) : (clearData s).tx = s.tx := rfl
@[simp] theorem clearData_ty (s : State) : (clearData s).ty = s.ty := rfl
@[simp] theorem clearData_w (s : State) : (clearData s).w = s.w := rfl
@[simp] theorem clearData_h (s : State) : (clearData s).h = s.h := rfl
@[simp] theorem clearData_tool (s : State) : (clearData s).tool = s.tool := rfl
@[simp] theorem clearData_colour (s : State) : (clearData s).colour = s.colour := rfl
@[simp] theorem clearData_data (s : State) : (clearData s).data = 0 := rfl
@[simp] theorem clearData_frameStart (s : State) : (clearData s).frameStart = s.frameStart := rfl
@[simp] theorem clearData_frameEnded (s : State) : (clearData s).frameEnded = s.frameEnded := rfl
@[simp] theorem clearData_pc (s : State) : (clearData s).pc = s.pc := rfl
@[simp] theorem clearData_run (s : State) : (clearData s).run = s.run := rfl
@[simp] theorem clearData_canvas (s : State) : (clearData s).canvas = s.canvas := rfl
@[simp] theorem clearData_program (s : State) : (clearData s).program = s.program := rfl
@[simp] theorem clearData_buffer (s : State) : (clearData s).buffer = s.buffer := rfl
@[simp] theorem clearData_events (s : State) : (clearData s).events = s.events := rfl
@[simp] theorem clearData_outcome (s : State) : (clearData s).outcome = s.outcome := rfl
@[simp] theorem clearData_params (s : State) : (clearData s).params = s.params := rfl
@[simp] theorem clearData_commands (s : State) : (clearData s).commands = s.commands := rfl
@[simp] theorem clearData_replies (s : State) : (clearData s).replies = s.replies := rfl

/-! ### `selectTool`. Tool selection (R140). -/

@[simp] theorem selectTool_x (t : U6) (s : State) : (selectTool t s).x = s.x := rfl
@[simp] theorem selectTool_y (t : U6) (s : State) : (selectTool t s).y = s.y := rfl
@[simp] theorem selectTool_tx (t : U6) (s : State) : (selectTool t s).tx = s.tx := rfl
@[simp] theorem selectTool_ty (t : U6) (s : State) : (selectTool t s).ty = s.ty := rfl
@[simp] theorem selectTool_w (t : U6) (s : State) : (selectTool t s).w = s.w := rfl
@[simp] theorem selectTool_h (t : U6) (s : State) : (selectTool t s).h = s.h := rfl
@[simp] theorem selectTool_tool (t : U6) (s : State) : (selectTool t s).tool = t := rfl
@[simp] theorem selectTool_colour (t : U6) (s : State) : (selectTool t s).colour = s.colour := rfl
@[simp] theorem selectTool_data (t : U6) (s : State) : (selectTool t s).data = 0 := rfl
@[simp] theorem selectTool_frameStart (t : U6) (s : State) : (selectTool t s).frameStart = s.frameStart := rfl
@[simp] theorem selectTool_frameEnded (t : U6) (s : State) : (selectTool t s).frameEnded = s.frameEnded := rfl
@[simp] theorem selectTool_pc (t : U6) (s : State) : (selectTool t s).pc = s.pc := rfl
@[simp] theorem selectTool_run (t : U6) (s : State) : (selectTool t s).run = s.run := rfl
@[simp] theorem selectTool_canvas (t : U6) (s : State) : (selectTool t s).canvas = s.canvas := rfl
@[simp] theorem selectTool_program (t : U6) (s : State) : (selectTool t s).program = s.program := rfl
@[simp] theorem selectTool_buffer (t : U6) (s : State) : (selectTool t s).buffer = s.buffer := rfl
@[simp] theorem selectTool_events (t : U6) (s : State) : (selectTool t s).events = s.events := rfl
@[simp] theorem selectTool_outcome (t : U6) (s : State) : (selectTool t s).outcome = s.outcome := rfl
@[simp] theorem selectTool_params (t : U6) (s : State) : (selectTool t s).params = s.params := rfl
@[simp] theorem selectTool_commands (t : U6) (s : State) : (selectTool t s).commands = s.commands := rfl
@[simp] theorem selectTool_replies (t : U6) (s : State) : (selectTool t s).replies = s.replies := rfl

/-! ### `commitPosition`. DY's position commit (R131). -/

@[simp] theorem commitPosition_x (s : State) : (commitPosition s).x = s.tx := rfl
@[simp] theorem commitPosition_y (s : State) : (commitPosition s).y = s.ty := rfl
@[simp] theorem commitPosition_tx (s : State) : (commitPosition s).tx = s.tx := rfl
@[simp] theorem commitPosition_ty (s : State) : (commitPosition s).ty = s.ty := rfl
@[simp] theorem commitPosition_w (s : State) : (commitPosition s).w = s.w := rfl
@[simp] theorem commitPosition_h (s : State) : (commitPosition s).h = s.h := rfl
@[simp] theorem commitPosition_tool (s : State) : (commitPosition s).tool = s.tool := rfl
@[simp] theorem commitPosition_colour (s : State) : (commitPosition s).colour = s.colour := rfl
@[simp] theorem commitPosition_data (s : State) : (commitPosition s).data = s.data := rfl
@[simp] theorem commitPosition_frameStart (s : State) : (commitPosition s).frameStart = s.frameStart := rfl
@[simp] theorem commitPosition_frameEnded (s : State) : (commitPosition s).frameEnded = s.frameEnded := rfl
@[simp] theorem commitPosition_pc (s : State) : (commitPosition s).pc = s.pc := rfl
@[simp] theorem commitPosition_run (s : State) : (commitPosition s).run = s.run := rfl
@[simp] theorem commitPosition_canvas (s : State) : (commitPosition s).canvas = s.canvas := rfl
@[simp] theorem commitPosition_program (s : State) : (commitPosition s).program = s.program := rfl
@[simp] theorem commitPosition_buffer (s : State) : (commitPosition s).buffer = s.buffer := rfl
@[simp] theorem commitPosition_events (s : State) : (commitPosition s).events = s.events := rfl
@[simp] theorem commitPosition_outcome (s : State) : (commitPosition s).outcome = s.outcome := rfl
@[simp] theorem commitPosition_params (s : State) : (commitPosition s).params = s.params := rfl
@[simp] theorem commitPosition_commands (s : State) : (commitPosition s).commands = s.commands := rfl
@[simp] theorem commitPosition_replies (s : State) : (commitPosition s).replies = s.replies := rfl

/-! ### `raiseFrameEnded`. The frame-end flag (R32). -/

@[simp] theorem raiseFrameEnded_x (s : State) : (raiseFrameEnded s).x = s.x := rfl
@[simp] theorem raiseFrameEnded_y (s : State) : (raiseFrameEnded s).y = s.y := rfl
@[simp] theorem raiseFrameEnded_tx (s : State) : (raiseFrameEnded s).tx = s.tx := rfl
@[simp] theorem raiseFrameEnded_ty (s : State) : (raiseFrameEnded s).ty = s.ty := rfl
@[simp] theorem raiseFrameEnded_w (s : State) : (raiseFrameEnded s).w = s.w := rfl
@[simp] theorem raiseFrameEnded_h (s : State) : (raiseFrameEnded s).h = s.h := rfl
@[simp] theorem raiseFrameEnded_tool (s : State) : (raiseFrameEnded s).tool = s.tool := rfl
@[simp] theorem raiseFrameEnded_colour (s : State) : (raiseFrameEnded s).colour = s.colour := rfl
@[simp] theorem raiseFrameEnded_data (s : State) : (raiseFrameEnded s).data = s.data := rfl
@[simp] theorem raiseFrameEnded_frameStart (s : State) : (raiseFrameEnded s).frameStart = s.frameStart := rfl
@[simp] theorem raiseFrameEnded_frameEnded (s : State) : (raiseFrameEnded s).frameEnded = true := rfl
@[simp] theorem raiseFrameEnded_pc (s : State) : (raiseFrameEnded s).pc = s.pc := rfl
@[simp] theorem raiseFrameEnded_run (s : State) : (raiseFrameEnded s).run = s.run := rfl
@[simp] theorem raiseFrameEnded_canvas (s : State) : (raiseFrameEnded s).canvas = s.canvas := rfl
@[simp] theorem raiseFrameEnded_program (s : State) : (raiseFrameEnded s).program = s.program := rfl
@[simp] theorem raiseFrameEnded_buffer (s : State) : (raiseFrameEnded s).buffer = s.buffer := rfl
@[simp] theorem raiseFrameEnded_events (s : State) : (raiseFrameEnded s).events = s.events := rfl
@[simp] theorem raiseFrameEnded_outcome (s : State) : (raiseFrameEnded s).outcome = s.outcome := rfl
@[simp] theorem raiseFrameEnded_params (s : State) : (raiseFrameEnded s).params = s.params := rfl
@[simp] theorem raiseFrameEnded_commands (s : State) : (raiseFrameEnded s).commands = s.commands := rfl
@[simp] theorem raiseFrameEnded_replies (s : State) : (raiseFrameEnded s).replies = s.replies := rfl

/-! ### `endFaulted`. The end of a faulted invocation (R201). -/

@[simp] theorem endFaulted_x (f : Fault) (s : State) : (endFaulted f s).x = s.x := rfl
@[simp] theorem endFaulted_y (f : Fault) (s : State) : (endFaulted f s).y = s.y := rfl
@[simp] theorem endFaulted_tx (f : Fault) (s : State) : (endFaulted f s).tx = s.tx := rfl
@[simp] theorem endFaulted_ty (f : Fault) (s : State) : (endFaulted f s).ty = s.ty := rfl
@[simp] theorem endFaulted_w (f : Fault) (s : State) : (endFaulted f s).w = s.w := rfl
@[simp] theorem endFaulted_h (f : Fault) (s : State) : (endFaulted f s).h = s.h := rfl
@[simp] theorem endFaulted_tool (f : Fault) (s : State) : (endFaulted f s).tool = s.tool := rfl
@[simp] theorem endFaulted_colour (f : Fault) (s : State) : (endFaulted f s).colour = s.colour := rfl
@[simp] theorem endFaulted_data (f : Fault) (s : State) : (endFaulted f s).data = s.data := rfl
@[simp] theorem endFaulted_frameStart (f : Fault) (s : State) : (endFaulted f s).frameStart = s.frameStart := rfl
@[simp] theorem endFaulted_frameEnded (f : Fault) (s : State) : (endFaulted f s).frameEnded = s.frameEnded := rfl
@[simp] theorem endFaulted_pc (f : Fault) (s : State) : (endFaulted f s).pc = s.pc := rfl
@[simp] theorem endFaulted_run (f : Fault) (s : State) : (endFaulted f s).run = .idle := rfl
@[simp] theorem endFaulted_canvas (f : Fault) (s : State) : (endFaulted f s).canvas = s.canvas := rfl
@[simp] theorem endFaulted_program (f : Fault) (s : State) : (endFaulted f s).program = s.program := rfl
@[simp] theorem endFaulted_buffer (f : Fault) (s : State) : (endFaulted f s).buffer = s.buffer := rfl
@[simp] theorem endFaulted_events (f : Fault) (s : State) : (endFaulted f s).events = s.events := rfl
@[simp] theorem endFaulted_outcome (f : Fault) (s : State) : (endFaulted f s).outcome = some (Fault.ending f) := rfl
@[simp] theorem endFaulted_params (f : Fault) (s : State) : (endFaulted f s).params = s.params := rfl
@[simp] theorem endFaulted_commands (f : Fault) (s : State) : (endFaulted f s).commands = s.commands := rfl
@[simp] theorem endFaulted_replies (f : Fault) (s : State) : (endFaulted f s).replies = s.replies := rfl

/-! ### `stopFull`. The stop of a full-stream decode (R172). -/

@[simp] theorem stopFull_x (s : State) : (stopFull s).x = s.x := rfl
@[simp] theorem stopFull_y (s : State) : (stopFull s).y = s.y := rfl
@[simp] theorem stopFull_tx (s : State) : (stopFull s).tx = s.tx := rfl
@[simp] theorem stopFull_ty (s : State) : (stopFull s).ty = s.ty := rfl
@[simp] theorem stopFull_w (s : State) : (stopFull s).w = s.w := rfl
@[simp] theorem stopFull_h (s : State) : (stopFull s).h = s.h := rfl
@[simp] theorem stopFull_tool (s : State) : (stopFull s).tool = s.tool := rfl
@[simp] theorem stopFull_colour (s : State) : (stopFull s).colour = s.colour := rfl
@[simp] theorem stopFull_data (s : State) : (stopFull s).data = s.data := rfl
@[simp] theorem stopFull_frameStart (s : State) : (stopFull s).frameStart = s.frameStart := rfl
@[simp] theorem stopFull_frameEnded (s : State) : (stopFull s).frameEnded = s.frameEnded := rfl
@[simp] theorem stopFull_pc (s : State) : (stopFull s).pc = s.pc := rfl
@[simp] theorem stopFull_run (s : State) : (stopFull s).run = .idle := rfl
@[simp] theorem stopFull_canvas (s : State) : (stopFull s).canvas = s.canvas := rfl
@[simp] theorem stopFull_program (s : State) : (stopFull s).program = s.program := rfl
@[simp] theorem stopFull_buffer (s : State) : (stopFull s).buffer = s.buffer := rfl
@[simp] theorem stopFull_events (s : State) : (stopFull s).events = s.events := rfl
@[simp] theorem stopFull_outcome (s : State) : (stopFull s).outcome = some .normal := rfl
@[simp] theorem stopFull_params (s : State) : (stopFull s).params = s.params := rfl
@[simp] theorem stopFull_commands (s : State) : (stopFull s).commands = s.commands := rfl
@[simp] theorem stopFull_replies (s : State) : (stopFull s).replies = s.replies := rfl

/-! ### `stopFrame`. The stop of a frame-step (R176). -/

@[simp] theorem stopFrame_x (s : State) : (stopFrame s).x = s.x := rfl
@[simp] theorem stopFrame_y (s : State) : (stopFrame s).y = s.y := rfl
@[simp] theorem stopFrame_tx (s : State) : (stopFrame s).tx = s.tx := rfl
@[simp] theorem stopFrame_ty (s : State) : (stopFrame s).ty = s.ty := rfl
@[simp] theorem stopFrame_w (s : State) : (stopFrame s).w = s.w := rfl
@[simp] theorem stopFrame_h (s : State) : (stopFrame s).h = s.h := rfl
@[simp] theorem stopFrame_tool (s : State) : (stopFrame s).tool = s.tool := rfl
@[simp] theorem stopFrame_colour (s : State) : (stopFrame s).colour = s.colour := rfl
@[simp] theorem stopFrame_data (s : State) : (stopFrame s).data = s.data := rfl
@[simp] theorem stopFrame_frameStart (s : State) : (stopFrame s).frameStart = if s.frameEnded then s.frameStart else 0 := rfl
@[simp] theorem stopFrame_frameEnded (s : State) : (stopFrame s).frameEnded = s.frameEnded := rfl
@[simp] theorem stopFrame_pc (s : State) : (stopFrame s).pc = s.pc := rfl
@[simp] theorem stopFrame_run (s : State) : (stopFrame s).run = .idle := rfl
@[simp] theorem stopFrame_canvas (s : State) : (stopFrame s).canvas = s.canvas := rfl
@[simp] theorem stopFrame_program (s : State) : (stopFrame s).program = s.program := rfl
@[simp] theorem stopFrame_buffer (s : State) : (stopFrame s).buffer = s.buffer := rfl
@[simp] theorem stopFrame_events (s : State) : (stopFrame s).events = s.events := rfl
@[simp] theorem stopFrame_outcome (s : State) : (stopFrame s).outcome = some .normal := rfl
@[simp] theorem stopFrame_params (s : State) : (stopFrame s).params = s.params := rfl
@[simp] theorem stopFrame_commands (s : State) : (stopFrame s).commands = s.commands := rfl
@[simp] theorem stopFrame_replies (s : State) : (stopFrame s).replies = s.replies := rfl

/-! ### `startFull`. The start of a full-stream decode (R171). -/

@[simp] theorem startFull_x (s : State) : (startFull s).x = 0 := rfl
@[simp] theorem startFull_y (s : State) : (startFull s).y = 0 := rfl
@[simp] theorem startFull_tx (s : State) : (startFull s).tx = 0 := rfl
@[simp] theorem startFull_ty (s : State) : (startFull s).ty = 0 := rfl
@[simp] theorem startFull_w (s : State) : (startFull s).w = 0 := rfl
@[simp] theorem startFull_h (s : State) : (startFull s).h = 0 := rfl
@[simp] theorem startFull_tool (s : State) : (startFull s).tool = 0 := rfl
@[simp] theorem startFull_colour (s : State) : (startFull s).colour = 0 := rfl
@[simp] theorem startFull_data (s : State) : (startFull s).data = 0 := rfl
@[simp] theorem startFull_frameStart (s : State) : (startFull s).frameStart = 0 := rfl
@[simp] theorem startFull_frameEnded (s : State) : (startFull s).frameEnded = false := rfl
@[simp] theorem startFull_pc (s : State) : (startFull s).pc = 0 := rfl
@[simp] theorem startFull_run (s : State) : (startFull s).run = .full := rfl
@[simp] theorem startFull_canvas (s : State) : (startFull s).canvas = [] := rfl
@[simp] theorem startFull_program (s : State) : (startFull s).program = s.program := rfl
@[simp] theorem startFull_buffer (s : State) : (startFull s).buffer = s.buffer := rfl
@[simp] theorem startFull_events (s : State) : (startFull s).events = s.events := rfl
@[simp] theorem startFull_outcome (s : State) : (startFull s).outcome = none := rfl
@[simp] theorem startFull_params (s : State) : (startFull s).params = s.params := rfl
@[simp] theorem startFull_commands (s : State) : (startFull s).commands = s.commands := rfl
@[simp] theorem startFull_replies (s : State) : (startFull s).replies = s.replies := rfl

/-! ### `startFrame`. The start of a frame-step (R174). -/

@[simp] theorem startFrame_x (s : State) : (startFrame s).x = 0 := rfl
@[simp] theorem startFrame_y (s : State) : (startFrame s).y = 0 := rfl
@[simp] theorem startFrame_tx (s : State) : (startFrame s).tx = 0 := rfl
@[simp] theorem startFrame_ty (s : State) : (startFrame s).ty = 0 := rfl
@[simp] theorem startFrame_w (s : State) : (startFrame s).w = s.w := rfl
@[simp] theorem startFrame_h (s : State) : (startFrame s).h = s.h := rfl
@[simp] theorem startFrame_tool (s : State) : (startFrame s).tool = 0 := rfl
@[simp] theorem startFrame_colour (s : State) : (startFrame s).colour = if s.params.frameResetColour then 0 else s.colour := rfl
@[simp] theorem startFrame_data (s : State) : (startFrame s).data = 0 := rfl
@[simp] theorem startFrame_frameStart (s : State) : (startFrame s).frameStart = s.frameStart := rfl
@[simp] theorem startFrame_frameEnded (s : State) : (startFrame s).frameEnded = false := rfl
@[simp] theorem startFrame_pc (s : State) : (startFrame s).pc = frameEntry s := rfl
@[simp] theorem startFrame_run (s : State) : (startFrame s).run = .frame := rfl
@[simp] theorem startFrame_canvas (s : State) : (startFrame s).canvas = s.canvas := rfl
@[simp] theorem startFrame_program (s : State) : (startFrame s).program = s.program := rfl
@[simp] theorem startFrame_buffer (s : State) : (startFrame s).buffer = s.buffer := rfl
@[simp] theorem startFrame_events (s : State) : (startFrame s).events = s.events := rfl
@[simp] theorem startFrame_outcome (s : State) : (startFrame s).outcome = none := rfl
@[simp] theorem startFrame_params (s : State) : (startFrame s).params = s.params := rfl
@[simp] theorem startFrame_commands (s : State) : (startFrame s).commands = s.commands := rfl
@[simp] theorem startFrame_replies (s : State) : (startFrame s).replies = s.replies := rfl

/-! ### `reply`. A command's answer (R214). -/

@[simp] theorem reply_x (r : Reply) (s : State) : (reply r s).x = s.x := rfl
@[simp] theorem reply_y (r : Reply) (s : State) : (reply r s).y = s.y := rfl
@[simp] theorem reply_tx (r : Reply) (s : State) : (reply r s).tx = s.tx := rfl
@[simp] theorem reply_ty (r : Reply) (s : State) : (reply r s).ty = s.ty := rfl
@[simp] theorem reply_w (r : Reply) (s : State) : (reply r s).w = s.w := rfl
@[simp] theorem reply_h (r : Reply) (s : State) : (reply r s).h = s.h := rfl
@[simp] theorem reply_tool (r : Reply) (s : State) : (reply r s).tool = s.tool := rfl
@[simp] theorem reply_colour (r : Reply) (s : State) : (reply r s).colour = s.colour := rfl
@[simp] theorem reply_data (r : Reply) (s : State) : (reply r s).data = s.data := rfl
@[simp] theorem reply_frameStart (r : Reply) (s : State) : (reply r s).frameStart = s.frameStart := rfl
@[simp] theorem reply_frameEnded (r : Reply) (s : State) : (reply r s).frameEnded = s.frameEnded := rfl
@[simp] theorem reply_pc (r : Reply) (s : State) : (reply r s).pc = s.pc := rfl
@[simp] theorem reply_run (r : Reply) (s : State) : (reply r s).run = s.run := rfl
@[simp] theorem reply_canvas (r : Reply) (s : State) : (reply r s).canvas = s.canvas := rfl
@[simp] theorem reply_program (r : Reply) (s : State) : (reply r s).program = s.program := rfl
@[simp] theorem reply_buffer (r : Reply) (s : State) : (reply r s).buffer = s.buffer := rfl
@[simp] theorem reply_events (r : Reply) (s : State) : (reply r s).events = s.events := rfl
@[simp] theorem reply_outcome (r : Reply) (s : State) : (reply r s).outcome = s.outcome := rfl
@[simp] theorem reply_params (r : Reply) (s : State) : (reply r s).params = s.params := rfl
@[simp] theorem reply_commands (r : Reply) (s : State) : (reply r s).commands = s.commands := rfl
@[simp] theorem reply_replies (r : Reply) (s : State) : (reply r s).replies = s.replies ++ [r] := rfl

end Sys2Proof.Machine
end

