-- ==== Sys2Proof/Laws/Exec.lean ====
section
/-! SUPPORT. What each meaning can do, said once. -/

namespace Sys2Proof.Machine

theorem execDy_of_ok {n : U6} {s d : State} (h : drawByTool { s with ty := s.ty + sext32 n } = .ok d) :
    execDy n s = .next (commitPosition d) := by
  simp only [execDy, h]

theorem execDy_of_error {n : U6} {s : State} {f : Fault} (h : drawByTool { s with ty := s.ty + sext32 n } = .error f) :
    execDy n s = .fault f := by
  simp only [execDy, h]

/-- Everything DY can do: raise the capacity fault of its BLOCK draw, or end in the state each tool's draw gives. -/
theorem execDy_cases (n : U6) (s : State) :
    (s.tool = 2 ∧ beyondCapacity s.params s.tx (s.ty + sext32 n) = true ∧
      execDy n s = .fault (.canvasCapacity s.pc s.tx (s.ty + sext32 n))) ∨
    (s.tool = 2 ∧ beyondCapacity s.params s.tx (s.ty + sext32 n) = false ∧ ∃ d,
      blockDraw { s with ty := s.ty + sext32 n } = .ok d ∧ execDy n s = .next (commitPosition d)) ∨
    (s.tool = 1 ∧ execDy n s = .next (commitPosition (lineDraw { s with ty := s.ty + sext32 n }))) ∨
    (s.tool ≠ 2 ∧ s.tool ≠ 1 ∧ execDy n s = .next (commitPosition { s with ty := s.ty + sext32 n })) := by
  by_cases h2 : s.tool = 2
  · have hd : drawByTool { s with ty := s.ty + sext32 n } = blockDraw { s with ty := s.ty + sext32 n } := if_pos h2
    obtain ⟨hb, e⟩ | ⟨hb, d, e, -⟩ := blockDraw_cases { s with ty := s.ty + sext32 n }
    · exact .inl ⟨h2, hb, execDy_of_error (hd.trans e)⟩
    · exact .inr (.inl ⟨h2, hb, d, e, execDy_of_ok (hd.trans e)⟩)
  · by_cases h1 : s.tool = 1
    · exact .inr (.inr (.inl ⟨h1, execDy_of_ok ((if_neg h2).trans (if_pos h1))⟩))
    · exact .inr (.inr (.inr ⟨h2, h1, execDy_of_ok ((if_neg h2).trans (if_neg h1))⟩))

/-- The fields of the state a DY ends in, whatever its draw. -/
theorem execDy_next {n : U6} {s t : State} (h : execDy n s = .next t) :
    t = { s with
      ty := s.ty + sext32 n
      x := s.tx
      y := s.ty + sext32 n
      w := if s.tool = 2 then smax s.w s.tx else s.w
      h := if s.tool = 2 then smax s.h (s.ty + sext32 n) else s.h
      canvas := t.canvas
      events := t.events } ∧
    t.events = s.events ++
      (if s.tool = 2 then
        [.drawFilledRect s.x s.y (s.tx - s.x) (s.ty + sext32 n - s.y) s.colour]
      else if s.tool = 1 then [.drawLine s.x s.y s.tx (s.ty + sext32 n)] else []) ∧
    (s.tool ≠ 2 → t.canvas = s.canvas) := by
  obtain ⟨h2, -, e⟩ | ⟨h2, -, d, hd, e⟩ | ⟨h1, e⟩ | ⟨h2, h1, e⟩ := execDy_cases n s
  · simp [e] at h
  · obtain rfl : commitPosition d = t := by simpa [e] using h
    obtain ⟨-, e⟩ | ⟨-, d', e, hf, -⟩ := blockDraw_cases { s with ty := s.ty + sext32 n }
    · simp [e] at hd
    · obtain rfl : d' = d := by simpa [e] using hd
      rw [hf]
      simp [commitPosition, h2]
  · obtain rfl : commitPosition (lineDraw { s with ty := s.ty + sext32 n }) = t := by simpa [e] using h
    simp [commitPosition, lineDraw, emit, h1]
  · obtain rfl : commitPosition { s with ty := s.ty + sext32 n } = t := by simpa [e] using h
    rw [if_neg h2, if_neg h2, if_neg h2, if_neg h1]
    simp [commitPosition]

/-- The cells a DY leaves: those of its BLOCK draw, or all as they were. -/
theorem execDy_readCell {n : U6} {s t : State} (h : execDy n s = .next t) (col row : Nat) :
    readCell t col row =
      if s.tool = 2 then drawnCell s s.x s.y s.tx (s.ty + sext32 n) col row else readCell s col row := by
  obtain ⟨h2, -, e⟩ | ⟨h2, -, d, hd, e⟩ | ⟨h1, e⟩ | ⟨h2, h1, e⟩ := execDy_cases n s
  · simp [e] at h
  · obtain rfl : commitPosition d = t := by simpa [e] using h
    rw [if_pos h2]
    exact readCell_blockDraw hd col row
  · obtain rfl : commitPosition (lineDraw { s with ty := s.ty + sext32 n }) = t := by simpa [e] using h
    simp [readCell, lineDraw, h1]
  · obtain rfl : commitPosition { s with ty := s.ty + sext32 n } = t := by simpa [e] using h
    rw [if_neg h2]
    rfl

/-- No instruction is refused. -/
theorem exec_not_refused (i : Instr) (s : State) (r : Refusal) : exec i s ≠ .refused r := by
  cases i with
  | dy n =>
    show execDy n s ≠ _
    obtain ⟨-, -, e⟩ | ⟨-, -, d, -, e⟩ | ⟨-, e⟩ | ⟨-, -, e⟩ := execDy_cases n s <;> simp [e]
  | _ => intro h; cases h

/-- Only DY faults, and only from its BLOCK draw. -/
theorem exec_fault {i : Instr} {s : State} {f : Fault} (h : exec i s = .fault f) :
    ∃ n, i = .dy n ∧ s.tool = 2 ∧ beyondCapacity s.params s.tx (s.ty + sext32 n) = true ∧
      f = .canvasCapacity s.pc s.tx (s.ty + sext32 n) := by
  cases i with
  | dy n =>
    change execDy n s = _ at h
    obtain ⟨h2, hb, e⟩ | ⟨-, -, d, -, e⟩ | ⟨-, e⟩ | ⟨-, -, e⟩ := execDy_cases n s <;> rw [e] at h
    · exact ⟨n, rfl, h2, hb, by simpa using h.symm⟩
    all_goals cases h
  | _ => cases h

/-- What no instruction writes. -/
theorem exec_sameOutside {i : Instr} {s t : State} (h : exec i s = .next t) : SameOutside s t := by
  cases i with
  | dy n =>
    obtain ⟨e, -, -⟩ := execDy_next (show execDy n s = .next t from h)
    rw [e]
    exact ⟨rfl, rfl, rfl, rfl, rfl, rfl, rfl⟩
  | _ => cases h; exact ⟨rfl, rfl, rfl, rfl, rfl, rfl, rfl⟩

/-- No instruction writes `pc`: the step alone advances it (R31, R124). -/
theorem exec_pc {i : Instr} {s t : State} (h : exec i s = .next t) : t.pc = s.pc := by
  cases i with
  | dy n =>
    obtain ⟨e, -, -⟩ := execDy_next (show execDy n s = .next t from h)
    rw [e]
  | _ => cases h; rfl

/-- An instruction appends at most one event (R60). -/
theorem exec_events {i : Instr} {s t : State} (h : exec i s = .next t) :
    ∃ evs, t.events = s.events ++ evs ∧ evs.length ≤ 1 := by
  cases i with
  | dy n =>
    obtain ⟨-, e, -⟩ := execDy_next (show execDy n s = .next t from h)
    exact ⟨_, e, by split <;> [simp; (split <;> simp)]⟩
  | toolColour => cases h; exact ⟨[_], rfl, by simp⟩
  | toolShow => cases h; exact ⟨[_], rfl, by simp⟩
  | toolPause => cases h; exact ⟨[_], rfl, by simp⟩
  | _ => cases h; exact ⟨[], by simp [selectTool, clearData, raiseFrameEnded], by simp⟩

end Sys2Proof.Machine
end

