-- ==== Sys2Proof/Laws/PerInstr.lean ====
section
/-! SUPPORT. The per-instruction family RoundTrip: an instruction of its row encodes to a byte of its row's match and mask,
and that byte decodes to the instruction (spec/30_encoding.md R80 to R83, spec/opcode_table.json). -/

namespace Sys2Proof.Laws.RoundTrip

/-- The byte of `i` has the fixed bits of `i`'s opcode-table row, and decodes to `i`. -/
def Statement (i : Instr) : Prop :=
  i.wf = true → encode i &&& (opcodeRow i).mask = (opcodeRow i).pattern ∧ decode (encode i) = i

theorem dx (s : U6) : Statement (.dx s) := by
  intro _
  refine ⟨?_, by simp [encode, decode_assembleByte]⟩
  revert s
  decide

theorem dy (s : U6) : Statement (.dy s) := by
  intro _
  refine ⟨?_, by simp [encode, decode_assembleByte]⟩
  revert s
  decide

theorem toolNone : Statement .toolNone := by unfold Statement; decide
theorem toolLine : Statement .toolLine := by unfold Statement; decide
theorem toolBlock : Statement .toolBlock := by unfold Statement; decide
theorem toolColour : Statement .toolColour := by unfold Statement; decide
theorem toolTargetX : Statement .toolTargetX := by unfold Statement; decide
theorem toolTargetY : Statement .toolTargetY := by unfold Statement; decide
theorem toolShow : Statement .toolShow := by unfold Statement; decide
theorem toolPause : Statement .toolPause := by unfold Statement; decide
theorem toolNextFrame : Statement .toolNextFrame := by unfold Statement; decide
theorem tool9 : Statement .tool9 := by unfold Statement; decide

theorem toolRaw10 (t : U6) : Statement (.toolRaw10 t) := by
  intro h
  refine ⟨?_, by simpa [encode, decode_assembleByte] using decodeTool_raw10 t h⟩
  revert t
  decide

theorem toolRaw12 (t : U6) : Statement (.toolRaw12 t) := by
  intro h
  refine ⟨?_, by simpa [encode, decode_assembleByte] using decodeTool_raw12 t h⟩
  revert t
  decide

theorem toolRaw16 (t : U6) : Statement (.toolRaw16 t) := by
  intro h
  refine ⟨?_, by simpa [encode, decode_assembleByte] using decodeTool_raw16 t h⟩
  revert t
  decide

theorem toolRaw32 (t : U6) : Statement (.toolRaw32 t) := by
  intro h
  refine ⟨?_, by simpa [encode, decode_assembleByte] using decodeTool_raw32 t h⟩
  revert t
  decide

theorem data (g : U6) : Statement (.data g) := by
  intro _
  refine ⟨?_, by simp [encode, decode_assembleByte]⟩
  revert g
  decide

end Sys2Proof.Laws.RoundTrip
end

