-- ==== Sys2Proof/Laws/Readout.lean ====
section
/-! SUPPORT. The laws of the canvas readout: decimal digits, and where a cell's byte stands. -/

namespace Sys2Proof.Machine

/-- The digits of a number, with no leading zero; as many as the fuel allows are enough. -/
theorem decimalFrom_spec (fuel n : Nat) (acc : List Byte) (h : n < 10 ^ (fuel + 1)) :
    ∃ ds : List Nat, decimalFrom (fuel + 1) n acc = ds.map digitByte ++ acc ∧ (∀ d ∈ ds, d ≤ 9) ∧
      Nat.ofDigits 10 ds.reverse = n ∧ ds ≠ [] ∧ (ds.head? = some 0 → ds = [0]) := by
  induction fuel generalizing n acc with
  | zero => exact ⟨[n], by simp [decimalFrom]; omega, by simp; omega, by simp, by simp, by simp⟩
  | succ f ih =>
    by_cases hn : n < 10
    · exact ⟨[n], by simp [decimalFrom, hn], by simp; omega, by simp, by simp, by simp⟩
    · obtain ⟨ds, h1, h2, h3, h4, h5⟩ :=
        ih (n / 10) (digitByte (n % 10) :: acc) (by rw [Nat.pow_succ] at h; omega)
      refine ⟨ds ++ [n % 10], ?_, ?_, ?_, by simp, ?_⟩
      · rw [decimalFrom, if_neg hn, h1]
        simp
      · intro d hd
        rw [List.mem_append, List.mem_singleton] at hd
        obtain hd | rfl := hd
        · exact h2 d hd
        · omega
      · rw [List.reverse_append, List.reverse_singleton, List.singleton_append, Nat.ofDigits_cons, h3]
        exact Nat.mod_add_div n 10
      · intro hh
        have hd : ds.head? = some 0 := by
          cases ds with
          | nil => exact absurd rfl h4
          | cons a r => simpa using hh
        rw [h5 hd] at h3
        simp at h3
        omega

theorem rowBytes_length (s : State) (row : Nat) : (rowBytes s row).length = s.w.toInt.toNat := by
  simp [rowBytes]

theorem rowsFrom_length (s : State) (row n : Nat) : (rowsFrom s row n).length = n * s.w.toInt.toNat := by
  induction n generalizing row with
  | zero => simp [rowsFrom]
  | succ n ih =>
    simp [rowsFrom, rowBytes_length, ih, Nat.succ_mul]
    omega

theorem rowsFrom_get (s : State) (row n k col : Nat) (hk : k < n) (hc : col < s.w.toInt.toNat) :
    (rowsFrom s row n)[k * s.w.toInt.toNat + col]? =
      some (Memory.read s.params.canvasFill s.canvas (cellAddr col (row + k))) := by
  induction n generalizing row k with
  | zero => omega
  | succ n ih =>
    rw [rowsFrom]
    cases k with
    | zero =>
      rw [List.getElem?_append_left (by rw [rowBytes_length]; omega)]
      simp [rowBytes, hc]
    | succ k =>
      rw [List.getElem?_append_right (by rw [rowBytes_length, Nat.succ_mul]; omega), rowBytes_length,
        show (k + 1) * s.w.toInt.toNat + col - s.w.toInt.toNat = k * s.w.toInt.toNat + col by rw [Nat.succ_mul]; omega,
        ih (row + 1) k (by omega), show row + 1 + k = row + (k + 1) by omega]

end Sys2Proof.Machine
end

