-- ==== Sys2Proof/Laws/Run.lean ====
section
/-! SUPPORT. What one step can do, said once, and how steps compose. -/

namespace Sys2Proof.Machine

/-! ### One step -/

theorem stepByte_next {b : Byte} {s t : State} (h : exec (decode b) s = .next t) :
    stepByte b s = .next (advancePc t) := by
  simp only [stepByte, h]

theorem stepByte_fault {b : Byte} {s : State} {f : Fault} (h : exec (decode b) s = .fault f) :
    stepByte b s = .next (endFaulted f s) := by
  simp only [stepByte, h]

theorem fetch_some_iff (s : State) : (∃ b, fetch s = some b) ↔ s.pc.toNat < s.program.length := by
  unfold fetch
  constructor
  · rintro ⟨b, h⟩
    exact (List.getElem?_eq_some_iff.1 h).1
  · intro h
    exact ⟨_, List.getElem?_eq_getElem h⟩

theorem step_enabled {s : State} {b : Byte} (he : stepEnabled s = true) (hb : fetch s = some b) :
    step s = stepByte b s := by
  unfold stepEnabled at he
  unfold step turn turnFull turnFrame
  cases hr : s.run <;> simp_all

theorem step_idle {s : State} (h : s.run = .idle) : step s = .next (hostTurn s) := by
  simp [step, turn, h]

theorem step_command {s : State} {c : Command} {rest : List Command} (h : s.run = .idle) (hc : s.commands = c :: rest) :
    step s = .next (runCommand c { s with commands := rest }) := by
  rw [step_idle h]
  simp [hostTurn, hc]

theorem step_full_end {s : State} (h : s.run = .full) (hp : s.program.length ≤ s.pc.toNat) :
    step s = .next (stopFull s) := by
  have hf : fetch s = none := by simp [fetch, hp]
  simp [step, turn, h, turnFull, hf]

theorem step_frame_end {s : State} (h : s.run = .frame) (hp : s.frameEnded = true ∨ s.program.length ≤ s.pc.toNat) :
    step s = .next (stopFrame s) := by
  by_cases hf : s.frameEnded = true
  · simp [step, turn, h, turnFrame, hf]
  · have hn : fetch s = none := by simpa [fetch, hf] using hp
    simp [step, turn, h, turnFrame, hn]

/-- Everything a step can do: the host's turn, a stop, an instruction, or an instruction's fault. -/
theorem step_cases (s : State) :
    (s.run = .idle ∧ step s = .next (hostTurn s)) ∨
    (s.run = .full ∧ s.program.length ≤ s.pc.toNat ∧ step s = .next (stopFull s)) ∨
    (s.run = .frame ∧ (s.frameEnded = true ∨ s.program.length ≤ s.pc.toNat) ∧ step s = .next (stopFrame s)) ∨
    (stepEnabled s = true ∧ ∃ b, fetch s = some b ∧
      ((∃ t, exec (decode b) s = .next t ∧ step s = .next (advancePc t)) ∨
        (∃ f, exec (decode b) s = .fault f ∧ step s = .next (endFaulted f s)))) := by
  by_cases he : stepEnabled s = true
  · right; right; right
    have hp : s.pc.toNat < s.program.length := by
      unfold stepEnabled at he
      cases hr : s.run <;> simp_all
    obtain ⟨b, hb⟩ := (fetch_some_iff s).2 hp
    refine ⟨he, b, hb, ?_⟩
    rw [step_enabled he hb]
    cases h : exec (decode b) s with
    | next t => exact .inl ⟨t, rfl, stepByte_next h⟩
    | fault f => exact .inr ⟨f, rfl, stepByte_fault h⟩
    | refused r => exact absurd h (exec_not_refused _ _ _)
  · unfold stepEnabled at he
    cases hr : s.run with
    | idle => exact .inl ⟨rfl, step_idle hr⟩
    | full =>
      have hp : s.program.length ≤ s.pc.toNat := by simpa [hr] using he
      exact .inr (.inl ⟨rfl, hp, step_full_end hr hp⟩)
    | frame =>
      have hp : s.frameEnded = true ∨ s.program.length ≤ s.pc.toNat := by
        rw [hr] at he
        simp at he
        by_cases h : s.pc.toNat < s.program.length
        · exact .inl (he h)
        · exact .inr (by omega)
      exact .inr (.inr (.inl ⟨rfl, hp, step_frame_end hr hp⟩))

/-- Within the program `pc` does not wrap. -/
theorem pc_succ {s : State} (h : s.pc.toNat < s.program.length) (hl : s.program.length ≤ Config.progMaxLen) :
    (s.pc + 1).toNat = s.pc.toNat + 1 := by
  unfold Config.progMaxLen at hl
  have h1 : (1 : Word).toNat = 1 := rfl
  rw [BitVec.toNat_add, h1]
  omega

theorem frameEntry_toNat {s : State} (h : s.program.length ≤ Config.progMaxLen) :
    (frameEntry s).toNat = min s.frameStart.toNat s.program.length := by
  unfold frameEntry Config.progMaxLen at *
  rw [BitVec.toNat_ofNat]
  omega

/-! ### Byte sequences -/

theorem runBytes_next {b : Byte} {rest : List Byte} {s t : State} (h : exec (decode b) s = .next t) :
    runBytes (b :: rest) s = runBytes rest (advancePc t) := by
  simp only [runBytes, h]

theorem runBytes_append {a b : List Byte} {s t : State} (h : runBytes a s = .next t) :
    runBytes (a ++ b) s = runBytes b t := by
  induction a generalizing s with
  | nil => cases h; rfl
  | cons c r ih =>
    simp only [runBytes, List.cons_append] at h ⊢
    split at h
    · exact ih h
    · cases h
    · cases h

/-! ### Many steps -/

theorem core_run_succ (M : Host.Core) (k : Nat) (s t : M.State) (h : M.step s = .next t) :
    M.run (k + 1) s = M.run k t := by
  simp [Host.Core.run, h]

theorem core_succ_next {k : Nat} {s t : State} (h : step s = .next t) :
    Sys2Proof.core.run (k + 1) s = Sys2Proof.core.run k t :=
  core_run_succ Sys2Proof.core k s t h

theorem core_add {j k : Nat} {s t : State} (h : Sys2Proof.core.run j s = .next t) :
    Sys2Proof.core.run (j + k) s = Sys2Proof.core.run k t := by
  induction j generalizing s with
  | zero => cases h; rw [Nat.zero_add]
  | succ j ih =>
    obtain ⟨u, hu⟩ : ∃ u, step s = .next u := by
      obtain ⟨-, h⟩ | ⟨-, -, h⟩ | ⟨-, -, h⟩ | ⟨-, b, -, ⟨t, -, h⟩ | ⟨f, -, h⟩⟩ := step_cases s <;> exact ⟨_, h⟩
    rw [core_succ_next hu] at h
    rw [show j + 1 + k = (j + k) + 1 by omega, core_succ_next hu]
    exact ih h

end Sys2Proof.Machine
end

