-- ==== Sys2Proof/Tests/Slice0.lean ====
section
/-! SUPPORT. Tests of the model: each expected value is taken from spec/95_test_vectors.md or written out from the encoding
tables of spec/30_encoding.md, never from the model. The last part shows that the hypotheses of each statement can be met. -/

namespace Sys2Proof.Tests

open Sys2Proof Sys2Proof.Machine

/-! ### WellFormed: one ill-formed term for each check -/

theorem test_wf_refuses_raw10_below : (Instr.toolRaw10 9).wf = false := by decide
theorem test_wf_refuses_raw10_above : (Instr.toolRaw10 12).wf = false := by decide
theorem test_wf_refuses_raw12_below : (Instr.toolRaw12 11).wf = false := by decide
theorem test_wf_refuses_raw12_above : (Instr.toolRaw12 16).wf = false := by decide
theorem test_wf_refuses_raw16_below : (Instr.toolRaw16 15).wf = false := by decide
theorem test_wf_refuses_raw16_above : (Instr.toolRaw16 32).wf = false := by decide
theorem test_wf_refuses_raw32_below : (Instr.toolRaw32 31).wf = false := by decide
theorem test_wf_refuses_long_program : programWf (List.replicate (Config.progMaxLen + 1) 0) = false := by
  unfold programWf
  rw [List.length_replicate]
  decide

/-! ### Decoding: a word of every row, opcode then operand (R80, R81, R83) -/

theorem test_decode_dx : decode 0b00_100000 = .dx 0b100000 := by decide
theorem test_decode_dy : decode 0b01_011111 = .dy 0b011111 := by decide
theorem test_decode_toolNone : decode 0b10_000000 = .toolNone := by decide
theorem test_decode_toolLine : decode 0b10_000001 = .toolLine := by decide
theorem test_decode_toolBlock : decode 0b10_000010 = .toolBlock := by decide
theorem test_decode_toolColour : decode 0b10_000011 = .toolColour := by decide
theorem test_decode_toolTargetX : decode 0b10_000100 = .toolTargetX := by decide
theorem test_decode_toolTargetY : decode 0b10_000101 = .toolTargetY := by decide
theorem test_decode_toolShow : decode 0b10_000110 = .toolShow := by decide
theorem test_decode_toolPause : decode 0b10_000111 = .toolPause := by decide
theorem test_decode_toolNextFrame : decode 0b10_001000 = .toolNextFrame := by decide
theorem test_decode_tool9 : decode 0b10_001001 = .tool9 := by decide
theorem test_decode_toolRaw10 : decode 0b10_001011 = .toolRaw10 0b001011 := by decide
theorem test_decode_toolRaw12 : decode 0b10_001111 = .toolRaw12 0b001111 := by decide
theorem test_decode_toolRaw16 : decode 0b10_011111 = .toolRaw16 0b011111 := by decide
theorem test_decode_toolRaw32 : decode 0b10_111111 = .toolRaw32 0b111111 := by decide
theorem test_decode_data : decode 0b11_111111 = .data 0b111111 := by decide
theorem test_decode_end_of_stream : decodeBytes [] = .error .endOfStream := by rfl
theorem test_decode_takes_one_byte : decodeBytes [0x3F, 0x80] = .ok (.dx 0x3F, [0x80]) := by rfl
theorem test_decodeTableWord : decodeTableWord 8 0x88 = some .toolNextFrame := by decide

/-! ### One step -/

/-- What `f` reads in the state an outcome leaves. -/
def after {α : Type} (o : Host.Outcome State Fault Refusal) (f : State → α) : Option α :=
  match o with
  | .next t => some (f t)
  | .fault _ => none
  | .refused _ => none

/-- A full-stream decode about to run the one byte `b`, at the given position and target. -/
def atByte (b : Byte) (tool : U6) (x y tx ty : Word) : State :=
  { State.reset with program := [b], run := .full, tool := tool, x := x, y := y, tx := tx, ty := ty }

/-- The start state of section 2.4 of spec/95_test_vectors.md, but for `pc`. -/
def toolStart (b : Byte) : State :=
  { atByte b 2 1 2 3 4 with colour := 9, data := 0xFFFFFFFF }

/-- A canvas of `w` by `h` cells, all `v`. -/
def paint (w h : Nat) (v : Byte) (s : State) : State :=
  fillBox v (List.range h) (List.range w) { s with w := BitVec.ofNat 32 w, h := BitVec.ofNat 32 h }

/-- DX, 2.2: 10 and 0x3D give 7, and only `tx` and `pc` change. -/
theorem test_dx : step (atByte 0x3D 0 0 0 10 0) = .next { atByte 0x3D 0 0 0 7 0 with pc := 1 } := by rfl
/-- DX, 2.2: 2^31 − 1 and 0x01 wrap to −2^31. -/
theorem test_dx_wraps : after (step (atByte 0x01 0 0 0 0x7FFFFFFF 0)) State.tx = some 0x80000000 := by decide

/-- The parameters of Y15. -/
def lowCanvas : Config.Params := { Config.reference with canvasMaxH := 1 }

/-- DY under NONE (Y1), LINE (Y9) and a raw tool (Y12). -/
theorem test_dy_moves :
    step (atByte 0x43 0 1 1 5 2) = .next { atByte 0x43 0 5 5 5 5 with pc := 1 } ∧
    step (atByte 0x40 1 0 0 10 5) = .next { atByte 0x40 1 10 5 10 5 with
      pc := 1, events := [.drawLine 0 0 10 5] } ∧
    step (atByte 0x41 63 0 0 1 1) = .next { atByte 0x41 63 1 2 1 2 with pc := 1 } := ⟨rfl, rfl, rfl⟩

/-- DY under BLOCK: a growing draw, with Fill in the new cell it left alone (Y8), a reversed box (Y5), a clipped one (Y6),
and a growth past the capacity (Y15, at offset 0). -/
theorem test_dy_block :
    after (step { paint 2 2 5 (atByte 0x40 2 0 0 3 1) with colour := 7 })
      (fun t => (t.w, t.h, [(0, 0), (1, 0), (2, 0), (0, 1), (1, 1), (2, 1), (3, 0), (0, 2)].map
        (fun c => readCell t c.1 c.2), t.events)) =
      some (3, 2, [some 7, some 7, some 7, some 5, some 5, some 0, none, none], [.drawFilledRect 0 0 3 1 7]) ∧
    after (step { paint 4 4 1 (atByte 0x40 2 4 4 1 1) with colour := 5 })
      (fun t => (t.w, t.x, t.canvas.map Prod.snd, t.events)) =
      some (4, 1, List.replicate 16 1, [.drawFilledRect 4 4 (-3) (-3) 5]) ∧
    after (step { atByte 0x40 2 (-2) 0 3 2 with colour := 7 })
      (fun t => (t.w, t.h, t.canvas.map Prod.snd, t.events)) =
      some (3, 2, List.replicate 6 7, [.drawFilledRect (-2) 0 5 2 7]) ∧
    step { atByte 0x42 2 0 0 4 0 with params := lowCanvas } =
      .next { atByte 0x42 2 0 0 4 0 with params := lowCanvas, run := .idle, outcome := some (.faulted 1 0 4 2) } := by
  refine ⟨?_, ?_, ?_, rfl⟩ <;> decide

theorem test_toolNone : step (toolStart 0x80) = .next { toolStart 0x80 with tool := 0, data := 0, pc := 1 } := by rfl
theorem test_toolLine : step (toolStart 0x81) = .next { toolStart 0x81 with tool := 1, data := 0, pc := 1 } := by rfl
theorem test_toolBlock : step (toolStart 0x82) = .next { toolStart 0x82 with data := 0, pc := 1 } := by rfl
theorem test_toolColour : step (toolStart 0x83) = .next { toolStart 0x83 with
    colour := 0xFFFFFFFF, data := 0, pc := 1, events := [.setColour 4294967295] } := by rfl
theorem test_toolTargetX : step (toolStart 0x84) = .next { toolStart 0x84 with tx := -1, data := 0, pc := 1 } := by rfl
theorem test_toolTargetY : step (toolStart 0x85) = .next { toolStart 0x85 with ty := -1, data := 0, pc := 1 } := by rfl
theorem test_toolShow : step (toolStart 0x86) = .next { toolStart 0x86 with
    data := 0, pc := 1, events := [.showCanvas] } := by rfl
theorem test_toolPause : step (toolStart 0x87) = .next { toolStart 0x87 with
    data := 0, pc := 1, events := [.delay 4294967295] } := by rfl
/-- The start state's `pc` is 7 here, as in 2.4. -/
theorem test_toolNextFrame :
    exec .toolNextFrame { toolStart 0x88 with pc := 7 } = .next { toolStart 0x88 with
      pc := 7, frameStart := 8, frameEnded := true, data := 0 } := by rfl
theorem test_tool9 : step (toolStart 0x89) = .next { toolStart 0x89 with tool := 9, data := 0, pc := 1 } := by rfl
theorem test_toolRaw10 : step (toolStart 0x8A) = .next { toolStart 0x8A with tool := 10, data := 0, pc := 1 } := by rfl
theorem test_toolRaw12 : step (toolStart 0x8F) = .next { toolStart 0x8F with tool := 15, data := 0, pc := 1 } := by rfl
theorem test_toolRaw16 : step (toolStart 0x90) = .next { toolStart 0x90 with tool := 16, data := 0, pc := 1 } := by rfl
theorem test_toolRaw32 : step (toolStart 0xBF) = .next { toolStart 0xBF with tool := 63, data := 0, pc := 1 } := by rfl

/-- DATA, 2.5: 0xFFFFFFFF and 0xC1. -/
theorem test_data :
    step { atByte 0xC1 0 0 0 0 0 with data := 0xFFFFFFFF } =
      .next { atByte 0xC1 0 0 0 0 0 with data := 0xFFFFFFC1, pc := 1 } := by rfl
/-- DATA, 2.5: bit 32 is lost. -/
theorem test_data_wraps : after (step { atByte 0xC0 0 0 0 0 0 with data := 0x04000000 }) State.data = some 0 := by decide

/-! ### Placing a word, and run control -/

/-- The byte placed after reset is what the next step runs. -/
theorem test_withFetchWord :
    after (step (State.reset.withFetchWord 8 0xC5)) (fun t => (t.data, t.pc, t.run)) = some (5, 1, .full) := by decide

/-- V4, the second frame-step's stop: end of stream wraps the cursor. -/
theorem test_frame_step_wraps :
    step { State.reset with program := [0x88], run := .frame, frameStart := 1, pc := 1 } =
      .next { State.reset with program := [0x88], pc := 1, outcome := some .normal } := by rfl

/-- 2.7: a frame-step from `frameStart = 20` with `L = 5` starts at 5. -/
theorem test_start_frame_past_the_end :
    after (step { State.reset with
      program := [0, 0, 0, 0, 0], frameStart := 20, tx := 3, colour := 6, commands := [.startFrame] })
      (fun t => (t.pc, t.run, t.tx, t.colour, t.frameStart)) = some (5, .frame, 0, 6, 20) := by decide

/-- R230: Reset keeps program memory and empties the rest. -/
theorem test_reset_command :
    step { State.reset with
      program := [0x88], buffer := [1], events := [.showCanvas], data := 3, commands := [.reset] } =
      .next { State.reset with program := [0x88] } := by rfl

/-- R58 on the canvas of program 2's first Rectangle, 2 by 2 and all 0: `P5 2 2 255` and a newline. -/
theorem test_readout :
    serialiseCanvas { State.reset with w := 2, h := 2 } =
      [0x50, 0x35, 0x20, 0x32, 0x20, 0x32, 0x20, 0x32, 0x35, 0x35, 0x0A, 0, 0, 0, 0] := by decide

/-! ### The encoder and the assembler -/

/-- Values of 2.6. -/
theorem test_encodeValue :
    encodeValue 0 = [0xC0] ∧ encodeValue 64 = [0xC1, 0xC0] ∧ encodeValue 0xFFFFFF = [0xFF, 0xFF, 0xFF, 0xFF] ∧
      encodeValue 0xFFFFFFFF = [0xC3, 0xFF, 0xFF, 0xFF, 0xFF, 0xFF] := by decide
theorem test_encode_moves :
    encodeDX (-3) = .ok 0x3D ∧ encodeDY 7 = .ok 0x47 ∧ encodeTool 63 = .ok 0xBF ∧ encodeData 4 = .ok 0xC4 := by
  refine ⟨?_, ?_, ?_, ?_⟩ <;> rfl
theorem test_encode_refuses :
    encodeDX 32 = .error .operandRange ∧ encodeDX (-33) = .error .operandRange ∧ encodeTool 64 = .error .operandRange ∧
      encodeRectangle ⟨256, 0, 0, 1, 1⟩ = .error .operandRange := by
  refine ⟨?_, ?_, ?_, ?_⟩ <;> rfl
/-- 2.6's Rectangle `{100,64,0,4096,1}`. -/
theorem test_encodeRectangle :
    encodeRectangle ⟨100, 64, 0, 4096, 1⟩ = .ok [0x80, 0xC1, 0xE4, 0x83, 0xC1, 0xC0, 0x84, 0xC0, 0x85, 0x40,
      0xC1, 0xC0, 0xC0, 0x84, 0xC1, 0x85, 0x82, 0x40] := by rfl
/-- V1. -/
theorem test_encode_move_bytes : encode (.dx 0b100000) = 0x20 ∧ encode (.dy 0b011111) = 0x5F := by decide
/-- Three lines of program 3. -/
theorem test_assembleText :
    assembleText "TOOL PAUSE ; wait\nDX -3\n\nDATA 0x24".toList = .ok [0x87, 0x3D, 0xE4] := by rfl
/-- R90: hexadecimal is a form of `<g>` and not of `<n>`. -/
theorem test_assembleText_n_is_decimal :
    assembleText "DX 0x1F".toList = .error .badLine ∧ assembleText "DY 0x1F".toList = .error .badLine ∧
      assembleText "DX 31".toList = .ok [0x1F] ∧ assembleText "DATA 0x1F".toList = .ok [0xDF] := by
  refine ⟨?_, ?_, ?_, ?_⟩ <;> rfl
/-- Program 1's `SETTX 4`. -/
theorem test_assemble_setTX : assembleLine (.setTX 4) = .ok [0xC4, 0x84] := by rfl

/-! ### The hypotheses of the statements can be met -/

theorem witness_StreamsDecodeToWhatTheyEncode :
    ∀ i ∈ [Instr.dx 0x20, .toolRaw10 10, .toolRaw32 63, .data 63], i.wf = true := by decide

theorem witness_OperandsSignedForMovesOnly :
    ((-32 : Int) ≤ -32 ∧ (-32 : Int) ≤ 31) ∧ ((-32 : Int) ≤ 31 ∧ (31 : Int) ≤ 31) ∧ 63 ≤ 63 ∧ (3 ≤ 3 ∧ 3 ≤ 8) ∧
      (3 ≤ 8 ∧ 8 ≤ 8) ∧ ¬ (3 ≤ 2 ∧ 2 ≤ 8) ∧ ¬ (3 ≤ 9 ∧ 9 ≤ 8) := by decide

/-- Y1 again: a DY that answers a next state. -/
theorem witness_DyAlwaysCommitsTheTarget :
    exec (.dy 3) (atByte 0x43 0 1 1 5 2) = .next (atByte 0x43 0 5 5 5 5) := by rfl

theorem witness_DyWithoutDrawingToolOnlyCommits :
    ((atByte 0x40 0 0 0 0 0).tool ≠ 1 ∧ (atByte 0x40 0 0 0 0 0).tool ≠ 2) ∧
      ((atByte 0x40 63 0 0 0 0).tool ≠ 1 ∧ (atByte 0x40 63 0 0 0 0).tool ≠ 2) := by decide

theorem witness_DyLineEmitsOneLine : (atByte 0x40 1 0 0 10 5).tool = 1 := by rfl

/-- Y2 is within the capacity, Y15 past it. -/
theorem witness_DyBlockFillsTheBox :
    ((atByte 0x40 2 0 0 4 4).tool = 2 ∧
      ¬ pastCapacity (atByte 0x40 2 0 0 4 4) 4 (movedTy 0 (atByte 0x40 2 0 0 4 4))) ∧
    ((atByte 0x42 2 0 0 4 0).tool = 2 ∧
      pastCapacity { atByte 0x42 2 0 0 4 0 with params := lowCanvas } 4 (movedTy 2 (atByte 0x42 2 0 0 4 0))) := by
  unfold pastCapacity
  decide

/-- Y4 (zero area) on a 4 by 4 canvas, and Y5 (reversed): both answer a next state, and cell (0, 0) exists. -/
theorem witness_EmptyBoxDrawsNoCell :
    (∃ t, exec (.dy 0) { atByte 0x40 2 0 0 3 0 with w := 4, h := 4 } = .next t) ∧
    (movedTy 0 (atByte 0x40 2 0 0 3 0)).toInt ≤ (0 : Word).toInt ∧
    (∃ t, exec (.dy 0) { atByte 0x40 2 4 4 1 1 with w := 4, h := 4 } = .next t) ∧
    (1 : Word).toInt ≤ (4 : Word).toInt ∧ inBounds 4 4 0 0 = true := by
  refine ⟨⟨_, rfl⟩, ?_, ⟨_, rfl⟩, ?_, ?_⟩ <;> decide

/-- Y8: cell (0, 1) of the 2 by 2 canvas is outside the drawn box. -/
theorem witness_DyChangesOnlyCellsInItsBox :
    (∃ t, exec (.dy 0) (paint 2 2 5 (atByte 0x40 2 0 0 3 1)) = .next t) ∧
    inBounds (paint 2 2 5 (atByte 0x40 2 0 0 3 1)).w (paint 2 2 5 (atByte 0x40 2 0 0 3 1)).h 0 1 = true ∧
    ¬ (inBox 0 0 3 (movedTy 0 (atByte 0x40 2 0 0 3 1)) 0 1 = true) ∧ (atByte 0x40 0 0 0 3 1).tool ≠ 2 := by
  refine ⟨⟨_, rfl⟩, ?_, ?_, ?_⟩ <;> decide

theorem witness_DyBlockFaultsExactlyPastCapacity :
    (∃ f, exec (.dy 2) { atByte 0x42 2 0 0 4 0 with params := lowCanvas } = .fault f) ∧
    2147483647 ≤ State.reset.params.canvasMaxW ∧ 2147483647 ≤ State.reset.params.canvasMaxH :=
  ⟨⟨_, rfl⟩, by decide, by decide⟩

theorem witness_ToolCodesSelectTheTool : 10 ≤ (10 : U6).toNat ∧ 10 ≤ (63 : U6).toNat := by decide

theorem witness_EncodedValueLoadsExactly : State.reset.data = 0 := by rfl

theorem witness_EncodedValueLengthIsMinimal : 1 < valueLength 64 ∧ ¬ 1 < valueLength 63 := by decide

theorem witness_SingleEncodersRefuseOutOfRange :
    (63 < 64 ∧ 63 ≤ 63) ∧ ((-33 : Word).toInt < -32 ∧ 31 < (32 : Word).toInt) ∧
      (-32 ≤ (-32 : Word).toInt ∧ (-32 : Word).toInt ≤ 31) ∧ (-32 ≤ (31 : Word).toInt ∧ (31 : Word).toInt ≤ 31) := by
  decide

theorem witness_RectangleBytesAreTheNineSteps :
    (256 : Int) > 255 ∧ (-1 : Int) < 0 ∧ ((0 : Int) ≤ 0 ∧ (0 : Int) ≤ 255) ∧ ((0 : Int) ≤ 255 ∧ (255 : Int) ≤ 255) := by
  decide

/-- V3's Rectangle, for the statements on encoded Rectangles and on Rectangle lists. -/
theorem witness_EncodedRectangle :
    encodeRectangle ⟨0, 0, 0, 4, 4⟩ =
      .ok [0x80, 0xC0, 0x83, 0xC0, 0x84, 0xC0, 0x85, 0x40, 0xC4, 0x84, 0xC4, 0x85, 0x82, 0x40] ∧
    ¬ pastCapacity State.reset 4 4 ∧
    encodeProgram [⟨0, 0, 0, 4, 4⟩] =
      .ok [0x80, 0xC0, 0x83, 0xC0, 0x84, 0xC0, 0x85, 0x40, 0xC4, 0x84, 0xC4, 0x85, 0x82, 0x40] := by
  refine ⟨rfl, ?_, rfl⟩
  unfold pastCapacity
  decide

theorem witness_ProgramRefused : encodeProgram [⟨0, 0, 0, 4, 4⟩, ⟨256, 0, 0, 1, 1⟩] = .error .operandRange := by rfl

/-- A 2 by 1 raster of two colours, in the manner of program 2. -/
theorem witness_DecodeOfEncodedRasterIsTheRaster :
    Partitions [⟨0, 0, 0, 1, 1⟩, ⟨255, 1, 0, 2, 1⟩] 2 1 (fun col _ => if col = 0 then 0 else 255) ∧
    ∃ bytes, encodeProgram [⟨0, 0, 0, 1, 1⟩, ⟨255, 1, 0, 2, 1⟩] = .ok bytes ∧ bytes.length ≤ Config.progMaxLen ∧
      2 ≤ State.reset.params.canvasMaxW ∧ 1 ≤ State.reset.params.canvasMaxH ∧
      ({ State.reset with program := bytes } : State).program = bytes := by
  have e0 : (0 : Word).toInt = 0 := by decide
  have e1 : (1 : Word).toInt = 1 := by decide
  have e2 : (2 : Word).toInt = 2 := by decide
  refine ⟨⟨?_, ?_, ?_, ?_, ?_⟩, ?_⟩
  · intro r hr
    simp only [List.mem_cons, List.not_mem_nil, or_false] at hr
    obtain rfl | rfl := hr <;> (simp only [Rect.within, e0, e1, e2]; decide)
  · decide
  · intro r hr col row hc
    simp only [List.mem_cons, List.not_mem_nil, or_false] at hr
    obtain rfl | rfl := hr <;>
      simp only [Rect.covers, inBox, e0, e1, e2, Bool.and_eq_true, decide_eq_true_eq] at hc
    · rw [if_pos (by omega)]; rfl
    · rw [if_neg (by omega)]; rfl
  · intro col row hc hr
    obtain hc | hc : col = 0 ∨ col = 1 := by omega
    all_goals
      obtain rfl : row = 0 := by omega
      subst hc
      decide
  · simp only [List.pairwise_cons, List.mem_cons, List.not_mem_nil, or_false, forall_eq, List.Pairwise.nil, and_true,
      false_implies, implies_true]
    rintro col row ⟨h, h'⟩
    simp only [Rect.covers, inBox, e0, e1, e2, Bool.and_eq_true, decide_eq_true_eq] at h h'
    omega
  · exact ⟨_, rfl, by decide, by decide, by decide, rfl⟩

/-- An enabled step that runs, and one that faults (Y15). -/
theorem witness_StepRunsTheDecodedInstruction :
    (stepEnabled (toolStart 0x86) = true ∧ (toolStart 0x86).program[(toolStart 0x86).pc.toNat]? = some 0x86 ∧
      ∃ t, exec (decode 0x86) (toolStart 0x86) = .next t) ∧
    (stepEnabled { atByte 0x42 2 0 0 4 0 with params := lowCanvas } = true ∧
      (atByte 0x42 2 0 0 4 0).program[(0 : Word).toNat]? = some 0x42 ∧
      ∃ f, exec (decode 0x42) { atByte 0x42 2 0 0 4 0 with params := lowCanvas } = .fault f) :=
  ⟨⟨rfl, rfl, ⟨_, rfl⟩⟩, rfl, rfl, ⟨_, rfl⟩⟩

/-- The step of Y15 meets the hypotheses of the statement on the fault. -/
theorem witness_CapacityFaultEndsTheInvocation :
    stepEnabled { atByte 0x42 2 0 0 4 0 with params := lowCanvas } = true ∧
    (atByte 0x42 2 0 0 4 0).program[(0 : Word).toNat]? = some 0x42 ∧ decode 0x42 = .dy 2 ∧
    (atByte 0x42 2 0 0 4 0).tool = 2 ∧
    pastCapacity { atByte 0x42 2 0 0 4 0 with params := lowCanvas } 4 (movedTy 2 (atByte 0x42 2 0 0 4 0)) := by
  refine ⟨rfl, rfl, by decide, rfl, ?_⟩
  unfold pastCapacity
  decide

/-- A step within an invocation: for the statements on every such step. -/
theorem witness_StepWithinAnInvocation :
    (toolStart 0x86).run ≠ .idle ∧ (∃ t, step (toolStart 0x86) = .next t) ∧
      ∃ t, step { toolStart 0x86 with pc := 1 } = .next t :=
  ⟨by decide, ⟨_, rfl⟩, ⟨_, rfl⟩⟩

/-- An instruction that answers a next state, for each reading of the access matrix. -/
theorem witness_EachRegisterHasOnlyItsWriters :
    (∃ t, exec .toolShow (toolStart 0x86) = .next t) ∧ (∃ t, exec (.dx 1) (toolStart 0x01) = .next t) ∧
      toolCode .toolShow = none ∧ isDirective (.dx 1) = false :=
  ⟨⟨_, rfl⟩, ⟨_, rfl⟩, rfl, rfl⟩

theorem witness_MovesDoNotReadAccumulatorOrFrame :
    (∃ t, exec (.dx 1) (atByte 0x01 2 0 0 1 1) = .next t) ∧ ∃ t, exec (.dy 0) (atByte 0x40 2 0 0 1 1) = .next t :=
  ⟨⟨_, rfl⟩, ⟨_, rfl⟩⟩

theorem witness_DyWithoutBlockIgnoresTheCanvas :
    (atByte 0x40 1 0 0 10 5).tool ≠ 2 ∧ ∃ t, exec (.dy 0) (atByte 0x40 1 0 0 10 5) = .next t :=
  ⟨by decide, ⟨_, rfl⟩⟩

theorem witness_StartFrameKeepsCursorAndCanvas :
    [0, 0, 0, 0, (0 : Byte)].length ≤ Config.progMaxLen ∧ State.reset.params.frameResetColour = false := by decide

theorem witness_FullDecodeStopsOnlyAtEndOfStream :
    (toolStart 0x86).run = .full ∧ (toolStart 0x86).pc.toNat < (toolStart 0x86).program.length ∧
      (toolStart 0x86).program.length ≤ (1 : Word).toNat := by decide

/-- The frame-step's stop after V4's NEXTFRAME, its stop at the end, and a state where it goes on. -/
theorem witness_FrameStepStopsAndWraps :
    ({ toolStart 0x88 with run := .frame, frameEnded := true } : State).frameEnded = true ∧
    (toolStart 0x88).frameEnded = false ∧ (toolStart 0x88).pc.toNat < (toolStart 0x88).program.length ∧
    (toolStart 0x88).program.length ≤ (1 : Word).toNat := by decide

theorem witness_FullDecodeRunsEveryByteOnce :
    (toolStart 0x86).run = .full ∧ (toolStart 0x86).pc = 0 ∧ (toolStart 0x86).program.length ≤ Config.progMaxLen ∧
      ∃ t, runBytes (toolStart 0x86).program (toolStart 0x86) = .next t :=
  ⟨rfl, rfl, by decide, ⟨_, rfl⟩⟩

/-- V4's program in a frame-step. -/
def oneFrame : State := { State.reset with program := [0x88], run := .frame }

theorem witness_inv : oneFrame.Inv := by constructor <;> decide

theorem witness_FrameStepRunsToTheNextFrameByte :
    oneFrame.Inv ∧ oneFrame.run = .frame ∧ oneFrame.frameEnded = false ∧ oneFrame.pc.toNat ≤ 0 ∧
    oneFrame.program[0]? = some 0x88 ∧ (∀ k, oneFrame.pc.toNat ≤ k → k < 0 → oneFrame.program[k]? ≠ some 0x88) ∧
    ∃ t, runBytes ((oneFrame.program.take 1).drop oneFrame.pc.toNat) oneFrame = .next t :=
  ⟨witness_inv, rfl, rfl, by decide, rfl, fun _ _ h => absurd h (Nat.not_lt_zero _), ⟨_, rfl⟩⟩

/-- 2.7's `frameStart = 20` with `L = 5`. -/
theorem witness_FrameStartedPastTheEndIsEmpty :
    ({ State.reset with commands := [.startFrame], frameStart := 20, program := [0, 0, 0, 0, 0] } : State).run = .idle ∧
      [0, 0, 0, 0, (0 : Byte)].length ≤ (20 : Word).toNat ∧ [0, 0, 0, 0, (0 : Byte)].length ≤ Config.progMaxLen := by
  decide

theorem witness_EveryInvocationStops : oneFrame.Inv ∧ oneFrame.run ≠ .idle := ⟨witness_inv, by decide⟩

theorem witness_EveryStepKeepsTheInvariant : oneFrame.Inv ∧ ∃ t, step oneFrame = .next t := ⟨witness_inv, ⟨_, rfl⟩⟩

theorem witness_HostCommandsRunOnlyBetweenInvocations :
    (State.reset.run = .idle ∧ ({ State.reset with commands := [.takeEvents] } : State).commands = .takeEvents :: []) ∧
      oneFrame.run ≠ .idle ∧ ∃ t, step oneFrame = .next t :=
  ⟨⟨rfl, rfl⟩, by decide, ⟨_, rfl⟩⟩

theorem witness_LoadProgramReplacesProgramMemory :
    [(0x88 : Byte)].length ≤ Config.progMaxLen ∧
      Config.progMaxLen < (List.replicate (Config.progMaxLen + 1) (0 : Byte)).length := by
  rw [List.length_replicate]
  decide

/-- The bounds of program 2's canvas, and a cell of it. -/
theorem witness_CanvasReadoutIsTheRowMajorRaster :
    0 ≤ (4 : Word).toInt ∧ 0 ≤ (2 : Word).toInt ∧ inBounds 4 2 3 1 = true ∧ 0 ≤ (0 : Word).toInt := by decide

theorem witness_EncodeCommandAppendsToTheBuffer :
    (∃ bytes, encodeProgram [⟨0, 0, 0, 4, 4⟩] = .ok bytes) ∧
      ∃ e, encodeProgram [⟨256, 0, 0, 1, 1⟩] = .error e :=
  ⟨⟨_, rfl⟩, ⟨_, rfl⟩⟩

theorem witness_IdleMachineKeepsItsState : State.reset.run = .idle ∧ State.reset.commands = [] := ⟨rfl, rfl⟩

theorem witness_AssembledLineIsItsInstruction :
    ((-32 : Int) ≤ -32 ∧ (31 : Int) ≤ 31) ∧ ((-33 : Int) < -32 ∧ (31 : Int) < 32) ∧
      ((0 : Int) ≤ 0 ∧ (63 : Int) ≤ 63) ∧ ((-1 : Int) < 0 ∧ (63 : Int) < 64) := by decide

theorem witness_PseudoInstructionsExpand :
    ((0 : Int) ≤ 4294967295 ∧ (4294967295 : Int) ≤ 4294967295) ∧
      ((-2147483648 : Int) ≤ -2147483648 ∧ (-2147483648 : Int) ≤ 2147483647) ∧
      ((0 : Int) ≤ 255 ∧ (255 : Int) ≤ 255 ∧ isI32 (-2147483648) = true ∧ isI32 2147483647 = true) ∧
      ((-32 : Int) ≤ 31 ∧ (31 : Int) ≤ 31) := by decide

end Sys2Proof.Tests
end

section
/-! SUPPORT. The invariant (R30, R31, R37, R52, R54, R57): what keeps it, operation by operation, and then O46. -/

namespace Sys2Proof.Machine

/-! ### Updates that keep the invariant -/

/-- Between invocations R31 asks nothing of `pc`. -/
theorem State.Inv.to_idle {s : State} (hs : s.Inv) (o : Option Ending) : { s with run := .idle, outcome := o }.Inv :=
  { hs with pc_le := fun h => absurd rfl h }

theorem State.Inv.reply {s : State} (hs : s.Inv) (r : Reply) : (reply r s).Inv :=
  { hs with }

theorem State.Inv.emit {s : State} (hs : s.Inv) (ev : Event) : (emit ev s).Inv :=
  { hs with }

theorem State.Inv.clearData {s : State} (hs : s.Inv) : (clearData s).Inv :=
  { hs with }

theorem State.Inv.commitPosition {s : State} (hs : s.Inv) : (commitPosition s).Inv :=
  { hs with }

theorem State.Inv.selectTool {s : State} (hs : s.Inv) {t : U6} (ht : toolLegal t) : (selectTool t s).Inv :=
  { hs with tool_legal := ht }

/-- A step at an offset below `L` moves `pc` to `L` at most (R31). -/
theorem State.Inv.advancePc {s : State} (hs : s.Inv) (hpc : s.pc.toNat < s.program.length) : (advancePc s).Inv :=
  { hs with pc_le := fun _ => (pc_succ hpc hs.program_length).trans_le hpc }

/-- The offset after a NEXTFRAME byte is `L` at most, so a cursor that holds it stays in range (R30). -/
theorem State.Inv.recordFrame {s : State} (hs : s.Inv) (hpc : s.pc.toNat < s.program.length) :
    (raiseFrameEnded { s with frameStart := s.pc + 1 }).Inv :=
  { hs with frameStart_le := (pc_succ hpc hs.program_length).trans_le (hpc.trans_le hs.program_length) }

theorem State.Inv.stopFrame {s : State} (hs : s.Inv) : (stopFrame s).Inv := by
  have hfs : (Machine.stopFrame s).frameStart.toNat ≤ Config.progMaxLen := by
    rw [stopFrame_frameStart]
    split
    · exact hs.frameStart_le
    · exact Nat.zero_le _
  exact { hs with frameStart_le := hfs, pc_le := fun h => absurd rfl h }

/-! ### The canvas of a BLOCK draw -/

theorem smax_le_capacity {a b : Word} {c : Nat} (ha : a.toInt ≤ c) (hb : b.toInt ≤ c) : (smax a b).toInt ≤ c := by
  rw [smax_toInt]
  exact max_le ha hb

theorem smax_nonneg {a b : Word} (ha : 0 ≤ a.toInt) : 0 ≤ (smax a b).toInt := by
  rw [smax_toInt]
  exact le_max_of_le_left ha

/-- A cell stays within the bounds when they grow (R56). -/
theorem inBounds_smax {w h : Word} (nw nh : Word) {col row : Nat} (hb : inBounds w h col row = true) :
    inBounds (smax w nw) (smax h nh) col row = true := by
  rw [inBounds_iff] at *
  rw [smax_toInt, smax_toInt]
  omega

/-- A growth within the capacity keeps the invariant (R56, R57). -/
theorem State.Inv.canvasEnlarge {s : State} (hs : s.Inv) {nw nh : Word} (hcap : beyondCapacity s.params nw nh = false) :
    (canvasEnlarge nw nh s).Inv := by
  obtain ⟨hnw, hnh⟩ := (beyondCapacity_eq_false ..).1 hcap
  exact { hs with
    w_nonneg := smax_nonneg hs.w_nonneg
    h_nonneg := smax_nonneg hs.h_nonneg
    w_capacity := smax_le_capacity hs.w_capacity hnw
    h_capacity := smax_le_capacity hs.h_capacity hnh
    canvas_wf := by rw [canvasEnlarge_canvas]; exact Memory.wf_keep _ _ _ hs.canvas_wf
    canvas_bounds := fun c hc => inBounds_smax nw nh (hs.canvas_bounds c (List.mem_of_mem_filter hc)) }

/-- A box within the bounds may be filled: its cells are the only ones it can add to the canvas (R54, R55). -/
theorem State.Inv.fillBox {s : State} (hs : s.Inv) (v : Byte) {rows cols : List Nat}
    (hbox : ∀ row ∈ rows, ∀ col ∈ cols, inBounds s.w s.h col row = true) : (fillBox v rows cols s).Inv := by
  have hbounds : ∀ c ∈ (Machine.fillBox v rows cols s).canvas, inBounds s.w s.h (cellCol c.1) (cellRow c.1) = true := by
    intro c hc
    obtain ⟨row, hrow, col, hcol, e⟩ | hold := mem_fillBox _ _ _ _ _ hc
    · have hin := hbox row hrow col hcol
      have hlt := inBounds_col_lt hin
      rwa [e, cellCol_cellAddr _ _ hlt, cellRow_cellAddr _ _ hlt]
    · exact hs.canvas_bounds c hold
  have hwf := wf_fillBox v rows cols s hs.canvas_wf
  rw [fillBox_frame]
  exact { hs with canvas_wf := hwf, canvas_bounds := hbounds }

/-- The loops of R132 stay within the grown bounds. -/
theorem inBounds_of_mem_clippedRange {x y tx ty : Word} (w h : Word) {col row : Nat} (hcol : col ∈ clippedRange x tx)
    (hrow : row ∈ clippedRange y ty) : inBounds (smax w tx) (smax h ty) col row = true := by
  have hc := ((mem_clippedRange ..).1 hcol).2
  have hr := ((mem_clippedRange ..).1 hrow).2
  rw [inBounds_iff, smax_toInt, smax_toInt]
  omega

/-- What a BLOCK draw within the capacity makes of a state: grow, fill, emit (R132). -/
def blockDrawn (s : State) : State :=
  emit (.drawFilledRect s.x s.y (s.tx - s.x) (s.ty - s.y) s.colour)
    (fillBox (s.colour.setWidth 8) (clippedRange s.y s.ty) (clippedRange s.x s.tx) (canvasEnlarge s.tx s.ty s))

theorem blockDraw_eq_ok_iff (s t : State) :
    blockDraw s = .ok t ↔ beyondCapacity s.params s.tx s.ty = false ∧ blockDrawn s = t := by
  cases hcap : beyondCapacity s.params s.tx s.ty <;> simp [blockDraw, canvasGrow, blockDrawn, hcap]

theorem State.Inv.blockDraw {s t : State} (hs : s.Inv) (h : blockDraw s = .ok t) : t.Inv := by
  obtain ⟨hcap, rfl⟩ := (blockDraw_eq_ok_iff ..).1 h
  exact ((hs.canvasEnlarge hcap).fillBox _
    (fun _ hrow _ hcol => inBounds_of_mem_clippedRange s.w s.h hcol hrow)).emit _

/-! ### Instructions -/

theorem State.Inv.execDy {n : U6} {s t : State} (hs : s.Inv) (h : execDy n s = .next t) : t.Inv := by
  have hmoved : { s with ty := s.ty + sext32 n }.Inv := { hs with }
  obtain ⟨-, -, e⟩ | ⟨-, -, d, hd, e⟩ | ⟨-, e⟩ | ⟨-, -, e⟩ := execDy_cases n s <;> rw [e] at h <;> cases h
  · exact (hmoved.blockDraw hd).commitPosition
  · exact (hmoved.emit _).commitPosition
  · exact hmoved.commitPosition

/-- A well-formed raw tool row has no directive code and no code below 10 (R83, R151). -/
theorem toolLegal_of_toolCode {i : Instr} {c : U6} (hi : i.wf = true) (hc : toolCode i = some c) : toolLegal c := by
  cases i with
  | toolNone | toolLine | toolBlock | tool9 => cases hc; decide
  | toolRaw10 t | toolRaw12 t | toolRaw16 t | toolRaw32 t =>
    cases hc
    simp only [Instr.wf, Bool.and_eq_true, decide_eq_true_eq] at hi
    exact .inr (by omega)
  | _ => cases hc

/-- Every instruction at an offset of the program keeps the invariant. -/
theorem State.Inv.exec {i : Instr} {s t : State} (hs : s.Inv) (hi : i.wf = true) (hpc : s.pc.toNat < s.program.length)
    (h : exec i s = .next t) : t.Inv := by
  cases i with
  | dx n => cases h; exact { hs with }
  | dy n => exact hs.execDy h
  | toolColour => cases h; exact State.Inv.clearData { hs with }
  | toolTargetX => cases h; exact State.Inv.clearData { hs with }
  | toolTargetY => cases h; exact State.Inv.clearData { hs with }
  | toolShow => cases h; exact (hs.emit _).clearData
  | toolPause => cases h; exact (hs.emit _).clearData
  | toolNextFrame => cases h; exact (hs.recordFrame hpc).clearData
  | data g => cases h; exact { hs with }
  | _ => cases h; exact hs.selectTool (toolLegal_of_toolCode hi rfl)

/-! ### Host commands -/

theorem State.Inv.powerOnReset {s : State} (hs : s.Inv) : (powerOnReset s).Inv where
  tool_legal := .inl (Nat.zero_le _)
  w_nonneg := le_rfl
  h_nonneg := le_rfl
  w_capacity := Int.natCast_nonneg _
  h_capacity := Int.natCast_nonneg _
  canvas_wf := rfl
  canvas_bounds := fun _ hc => absurd hc List.not_mem_nil
  program_length := hs.program_length
  frameStart_le := Nat.zero_le _
  pc_le := fun h => absurd rfl h

theorem State.Inv.startFull {s : State} (hs : s.Inv) : (startFull s).Inv where
  tool_legal := .inl (Nat.zero_le _)
  w_nonneg := le_rfl
  h_nonneg := le_rfl
  w_capacity := Int.natCast_nonneg _
  h_capacity := Int.natCast_nonneg _
  canvas_wf := rfl
  canvas_bounds := fun _ hc => absurd hc List.not_mem_nil
  program_length := hs.program_length
  frameStart_le := Nat.zero_le _
  pc_le := fun _ => Nat.zero_le _

/-- A frame-step starts at `min(frameStart, L)`, which is within the program (R174). -/
theorem State.Inv.startFrame {s : State} (hs : s.Inv) : (startFrame s).Inv :=
  { hs with
    tool_legal := .inl (Nat.zero_le _)
    pc_le := fun _ => (frameEntry_toNat hs.program_length).trans_le (Nat.min_le_right _ _) }

/-- `LoadProgram` comes between invocations, so `pc` need not fit the new program (R31, R215). -/
theorem State.Inv.loadProgram {s : State} (hs : s.Inv) (hidle : s.run = .idle) (bytes : List Byte) :
    (loadProgram bytes s).Inv := by
  unfold Machine.loadProgram
  split
  next hwf => exact { hs with program_length := of_decide_eq_true hwf, pc_le := fun h => absurd hidle h }
  next => exact hs.reply _

theorem State.Inv.encodeCommand {s : State} (hs : s.Inv) (rects : List Rect) : (encodeCommand rects s).Inv := by
  unfold Machine.encodeCommand
  split
  next bytes _ => exact State.Inv.reply (s := { s with buffer := s.buffer ++ bytes }) { hs with } _
  next => exact hs.reply _

theorem State.Inv.runCommand {s : State} (hs : s.Inv) (hidle : s.run = .idle) (c : Command) : (runCommand c s).Inv := by
  cases c with
  | reset => exact hs.powerOnReset
  | loadProgram bytes => exact hs.loadProgram hidle bytes
  | startFull => exact hs.startFull
  | startFrame => exact hs.startFrame
  | readState => exact hs.reply _
  | readCanvas => exact hs.reply _
  | takeEvents => exact State.Inv.reply (s := { s with events := [] }) { hs with } _
  | encode rects => exact hs.encodeCommand rects

theorem State.Inv.hostTurn {s : State} (hs : s.Inv) (hidle : s.run = .idle) : (hostTurn s).Inv := by
  unfold Machine.hostTurn
  split
  next => exact hs
  next c rest _ => exact State.Inv.runCommand (s := { s with commands := rest }) { hs with } hidle c

/-! ### Every move -/

/-- Settles O46, by the cases of one move: the host's turn, a stop, an instruction, or its fault. -/
theorem everyStepKeepsTheInvariant : Obligations.EveryStepKeepsTheInvariant := by
  intro s t hs h
  obtain ⟨hidle, e⟩ | ⟨-, -, e⟩ | ⟨-, -, e⟩ | ⟨-, b, hb, ⟨u, hu, e⟩ | ⟨f, -, e⟩⟩ := step_cases s
  all_goals obtain rfl := Host.Outcome.next.inj (e.symm.trans h)
  case inl => exact hs.hostTurn hidle
  case inr.inl => exact hs.to_idle _
  case inr.inr.inl => exact hs.stopFrame
  case inr.inr.inr.inl =>
    have hpc := (fetch_some_iff s).1 ⟨b, hb⟩
    obtain ⟨hprogram, -⟩ := exec_sameOutside hu
    exact (hs.exec (decode_wf b) hpc hu).advancePc (by rwa [exec_pc hu, hprogram])
  case inr.inr.inr.inr => exact hs.to_idle _

end Sys2Proof.Machine
end

section
/-! SUPPORT. The columns of R36's access matrix: for each item of state, the instructions that leave it alone. O35 puts the
columns together. -/

namespace Sys2Proof.Machine

/-- A DY leaves everything but the position, the bounds, the canvas and the event output as it was. -/
theorem execDy_kept {n : U6} {s t : State} (h : execDy n s = .next t) :
    t.tx = s.tx ∧ t.tool = s.tool ∧ t.colour = s.colour ∧ t.data = s.data ∧ SameFrame s t := by
  obtain ⟨e, -, -⟩ := execDy_next h
  rw [e]
  exact ⟨rfl, rfl, rfl, rfl, rfl, rfl⟩

theorem exec_position {i : Instr} {s t : State} (h : exec i s = .next t) (hi : ∀ n, i ≠ .dy n) :
    t.x = s.x ∧ t.y = s.y := by
  cases i with
  | dy n => exact absurd rfl (hi n)
  | _ => cases h; exact ⟨rfl, rfl⟩

theorem exec_tx {i : Instr} {s t : State} (h : exec i s = .next t) (hi : ∀ n, i ≠ .dx n) (hx : i ≠ .toolTargetX) :
    t.tx = s.tx := by
  cases i with
  | dx n => exact absurd rfl (hi n)
  | toolTargetX => exact absurd rfl hx
  | dy n =>
    obtain ⟨htx, -⟩ := execDy_kept h
    exact htx
  | _ => cases h; rfl

theorem exec_ty {i : Instr} {s t : State} (h : exec i s = .next t) (hi : ∀ n, i ≠ .dy n) (hy : i ≠ .toolTargetY) :
    t.ty = s.ty := by
  cases i with
  | dy n => exact absurd rfl (hi n)
  | toolTargetY => exact absurd rfl hy
  | _ => cases h; rfl

/-- Cells are read from the bounds, the listed cells and the fill byte alone. -/
theorem sameCanvas_of_eq {s t : State} (hw : t.w = s.w) (hh : t.h = s.h) (hc : t.canvas = s.canvas)
    (hp : t.params = s.params) : SameCanvas s t :=
  ⟨hw, hh, fun _ _ => by simp only [readCell, hw, hh, hc, hp]⟩

/-- A DY that is not a BLOCK draw leaves the canvas as it was (R133, R134). -/
theorem execDy_sameCanvas {n : U6} {s t : State} (h : execDy n s = .next t) (h2 : s.tool ≠ 2) : SameCanvas s t := by
  obtain ⟨e, -, hc⟩ := execDy_next h
  rw [if_neg h2, if_neg h2] at e
  exact sameCanvas_of_eq (by rw [e]) (by rw [e]) (hc h2) (by rw [e])

theorem exec_sameCanvas {i : Instr} {s t : State} (h : exec i s = .next t) (hi : ∀ n, ¬ (i = .dy n ∧ s.tool = 2)) :
    SameCanvas s t := by
  cases i with
  | dy n => exact execDy_sameCanvas h fun h2 => hi n ⟨rfl, h2⟩
  | _ => cases h; exact sameCanvas_of_eq rfl rfl rfl rfl

/-- A tool code replaces `tool`; no other instruction writes it (R84, R140). -/
theorem exec_tool {i : Instr} {s t : State} (h : exec i s = .next t) : t.tool = (toolCode i).getD s.tool := by
  cases i with
  | dy n =>
    obtain ⟨-, htool, -⟩ := execDy_kept h
    exact htool
  | _ => cases h; rfl

theorem exec_colour {i : Instr} {s t : State} (h : exec i s = .next t) (hi : i ≠ .toolColour) : t.colour = s.colour := by
  cases i with
  | dy n =>
    obtain ⟨-, -, hcolour, -⟩ := execDy_kept h
    exact hcolour
  | toolColour => exact absurd rfl hi
  | _ => cases h; rfl

/-- Outside TOOL and DATA there are only the moves, and neither writes `data` (R29). -/
theorem exec_data {i : Instr} {s t : State} (h : exec i s = .next t) (ht : toolCode i = none)
    (hd : isDirective i = false) (hi : ∀ g, i ≠ .data g) : t.data = s.data := by
  cases i with
  | dx n => cases h; rfl
  | dy n =>
    obtain ⟨-, -, -, hdata, -⟩ := execDy_kept h
    exact hdata
  | data g => exact absurd rfl (hi g)
  | _ => simp [toolCode, isDirective] at ht hd

theorem exec_sameFrame {i : Instr} {s t : State} (h : exec i s = .next t) (hi : i ≠ .toolNextFrame) :
    SameFrame s t := by
  cases i with
  | dy n =>
    obtain ⟨-, -, -, -, hframe⟩ := execDy_kept h
    exact hframe
  | toolNextFrame => exact absurd rfl hi
  | _ => cases h; exact ⟨rfl, rfl⟩

/-- A DY that draws nothing emits nothing (R134). -/
theorem execDy_events_of_noDraw {n : U6} {s t : State} (h : execDy n s = .next t) (h1 : s.tool ≠ 1) (h2 : s.tool ≠ 2) :
    t.events = s.events := by
  obtain ⟨-, e, -⟩ := execDy_next h
  rw [e, if_neg h2, if_neg h1, List.append_nil]

theorem exec_sameEvents {i : Instr} {s t : State} (h : exec i s = .next t)
    (hi : ∀ n, ¬ (i = .dy n ∧ (s.tool = 1 ∨ s.tool = 2))) (hc : i ≠ .toolColour) (hs : i ≠ .toolShow)
    (hp : i ≠ .toolPause) : t.events = s.events := by
  cases i with
  | dy n => exact execDy_events_of_noDraw h (fun h1 => hi n ⟨rfl, .inl h1⟩) (fun h2 => hi n ⟨rfl, .inr h2⟩)
  | toolColour => exact absurd rfl hc
  | toolShow => exact absurd rfl hs
  | toolPause => exact absurd rfl hp
  | _ => cases h; rfl

/-- Settles O35, column by column. -/
theorem eachRegisterHasOnlyItsWriters : Obligations.EachRegisterHasOnlyItsWriters := by
  intro i s t h
  exact ⟨exec_sameOutside h, exec_pc h, exec_position h, exec_tx h, exec_ty h, exec_sameCanvas h,
    fun hi => by rw [exec_tool h, hi, Option.getD_none], exec_colour h, exec_data h, exec_sameFrame h, exec_sameEvents h⟩

end Sys2Proof.Machine
end

section
/-! SUPPORT. Where `pc` can move within an invocation (R31, R124, R125): O33. -/

namespace Sys2Proof.Machine

/-- Settles O33: a stop and a fault leave `pc` alone, and an instruction leaves `run` and `pc` to the step. -/
theorem stepMovesPcByOneOrStops : Obligations.StepMovesPcByOneOrStops := by
  intro s t hrun h
  obtain ⟨hidle, -⟩ | ⟨-, -, e⟩ | ⟨-, -, e⟩ | ⟨henabled, b, -, ⟨u, hu, e⟩ | ⟨f, -, e⟩⟩ := step_cases s
  case inl => exact absurd hidle hrun
  all_goals obtain rfl := Host.Outcome.next.inj (e.symm.trans h)
  case inr.inl => exact .inr ⟨rfl, rfl⟩
  case inr.inr.inl => exact .inr ⟨rfl, rfl⟩
  case inr.inr.inr.inl =>
    obtain ⟨-, -, -, hu_run, -⟩ := exec_sameOutside hu
    exact .inl ⟨hu_run, by rw [advancePc_pc, exec_pc hu], henabled⟩
  case inr.inr.inr.inr => exact .inr ⟨rfl, rfl⟩

end Sys2Proof.Machine
end

section
/-! SUPPORT. What DX and DY do not read (R29, R36): each move commutes with replacing the items it does not read. O36 and
O37. -/

namespace Sys2Proof.Machine

/-- The state with other values of the three items R29 keeps from the moves. -/
def withAccumulatorAndFrame (d fs : Word) (fe : Bool) (s : State) : State :=
  { s with data := d, frameStart := fs, frameEnded := fe }

section
variable (d fs : Word) (fe : Bool)

theorem fillRow_withAccumulatorAndFrame (v : Byte) (row : Nat) (cols : List Nat) (s : State) :
    fillRow v row cols (withAccumulatorAndFrame d fs fe s) = withAccumulatorAndFrame d fs fe (fillRow v row cols s) :=
  List.foldl_hom (withAccumulatorAndFrame d fs fe) (fun _ _ => rfl)

theorem fillBox_withAccumulatorAndFrame (v : Byte) (rows cols : List Nat) (s : State) :
    fillBox v rows cols (withAccumulatorAndFrame d fs fe s) = withAccumulatorAndFrame d fs fe (fillBox v rows cols s) :=
  List.foldl_hom (withAccumulatorAndFrame d fs fe) (fun s row => fillRow_withAccumulatorAndFrame d fs fe v row cols s)

/-- A BLOCK draw reads none of the three items (R132). -/
theorem blockDraw_withAccumulatorAndFrame {s t : State} (h : blockDraw s = .ok t) :
    blockDraw (withAccumulatorAndFrame d fs fe s) = .ok (withAccumulatorAndFrame d fs fe t) := by
  obtain ⟨hcap, rfl⟩ := (blockDraw_eq_ok_iff ..).1 h
  exact (blockDraw_eq_ok_iff ..).2
    ⟨hcap, congrArg (emit _) (fillBox_withAccumulatorAndFrame d fs fe _ _ _ (canvasEnlarge s.tx s.ty s))⟩

theorem drawByTool_withAccumulatorAndFrame {s t : State} (h : drawByTool s = .ok t) :
    drawByTool (withAccumulatorAndFrame d fs fe s) = .ok (withAccumulatorAndFrame d fs fe t) := by
  unfold drawByTool at h
  split at h
  next h2 => exact (if_pos h2).trans (blockDraw_withAccumulatorAndFrame d fs fe h)
  next h2 =>
    refine (if_neg h2).trans ?_
    split at h <;> cases h
    next h1 => exact if_pos h1
    next h1 => exact if_neg h1

/-- A DY that completes commits the position its draw leaves (R131). -/
theorem execDy_draw {n : U6} {s t : State} (h : execDy n s = .next t) :
    ∃ drawn, drawByTool { s with ty := s.ty + sext32 n } = .ok drawn ∧ commitPosition drawn = t := by
  unfold execDy at h
  split at h <;> cases h
  next drawn hdrawn => exact ⟨drawn, hdrawn, rfl⟩

theorem execDy_withAccumulatorAndFrame {n : U6} {s t : State} (h : execDy n s = .next t) :
    execDy n (withAccumulatorAndFrame d fs fe s) = .next (withAccumulatorAndFrame d fs fe t) := by
  obtain ⟨drawn, hdrawn, rfl⟩ := execDy_draw h
  have hmoved : { withAccumulatorAndFrame d fs fe s with ty := (withAccumulatorAndFrame d fs fe s).ty + sext32 n } =
      withAccumulatorAndFrame d fs fe { s with ty := s.ty + sext32 n } := rfl
  have hdraw := drawByTool_withAccumulatorAndFrame d fs fe hdrawn
  rw [← hmoved] at hdraw
  exact execDy_of_ok hdraw

end

/-- Settles O36: DX reads `tx` alone, and DY's draw commutes with the replacement. -/
theorem movesDoNotReadAccumulatorOrFrame : Obligations.MovesDoNotReadAccumulatorOrFrame := by
  rintro i n s t d fs fe (rfl | rfl) h
  · cases h
    rfl
  · exact execDy_withAccumulatorAndFrame d fs fe h

/-- Outside BLOCK a DY draws a line or nothing, and always completes (R133, R134). -/
theorem execDy_of_tool_ne_block (n : U6) {s : State} (h2 : s.tool ≠ 2) :
    execDy n s = .next (commitPosition
      (if s.tool = 1 then lineDraw { s with ty := s.ty + sext32 n } else { s with ty := s.ty + sext32 n })) := by
  obtain ⟨h, -⟩ | ⟨h, -⟩ | ⟨h1, e⟩ | ⟨-, h1, e⟩ := execDy_cases n s
  · exact absurd h h2
  · exact absurd h h2
  · rw [if_pos h1, e]
  · rw [if_neg h1, e]

/-- Settles O37: a line and an empty draw use the position and the target alone. -/
theorem dyWithoutBlockIgnoresTheCanvas : Obligations.DyWithoutBlockIgnoresTheCanvas := by
  intro n s t c w h m h2 he
  obtain rfl := Host.Outcome.next.inj ((execDy_of_tool_ne_block n h2).symm.trans he)
  refine (execDy_of_tool_ne_block n (s := { s with colour := c, w := w, h := h, canvas := m }) h2).trans ?_
  by_cases h1 : s.tool = 1
  · simp only [if_pos h1]
    rfl
  · simp only [if_neg h1]
    rfl

end Sys2Proof.Machine
end

section
/-! SUPPORT. The canvas storage (R54 to R58): the frame of DY's store (O11), its capacity fault (O12) and the readout
(O52). -/

namespace Sys2Proof.Machine

/-! ### DY's store -/

theorem le_smax_left (a b : Word) : a.toInt ≤ (smax a b).toInt := by
  rw [smax_toInt]
  exact le_max_left _ _

/-- Growth keeps every old column and row (R56). -/
theorem execDy_bounds_le {n : U6} {s t : State} (h : execDy n s = .next t) :
    s.w.toInt ≤ t.w.toInt ∧ s.h.toInt ≤ t.h.toInt := by
  by_cases h2 : s.tool = 2
  · obtain ⟨e, -, -⟩ := execDy_next h
    rw [if_pos h2, if_pos h2] at e
    rw [e]
    exact ⟨le_smax_left _ _, le_smax_left _ _⟩
  · obtain ⟨hw, hh, -⟩ := execDy_sameCanvas h h2
    rw [hw, hh]
    exact ⟨le_rfl, le_rfl⟩

/-- An old cell that the box of a BLOCK draw does not cover keeps its byte (R55, R132). -/
theorem execDy_readCell_old {n : U6} {s t : State} (h : execDy n s = .next t) {col row : Nat}
    (hold : inBounds s.w s.h col row = true)
    (hbox : ¬ (s.tool = 2 ∧ inBox s.x s.y s.tx (movedTy n s) col row = true)) :
    readCell t col row = readCell s col row := by
  rw [execDy_readCell h, ← movedTy_eq]
  split
  next h2 => exact drawnCell_old hold fun hin => hbox ⟨h2, hin⟩
  next => rfl

/-- Settles O11: a draw outside its box, another tool, and growth each leave the old cells. -/
theorem dyChangesOnlyCellsInItsBox : Obligations.DyChangesOnlyCellsInItsBox := by
  intro n s t h
  exact ⟨fun _ _ => execDy_readCell_old h, execDy_sameCanvas h, execDy_bounds_le h⟩

/-! ### The capacity fault -/

theorem execDy_fault_iff (n : U6) (s : State) :
    (∃ f, execDy n s = .fault f) ↔ s.tool = 2 ∧ pastCapacity s s.tx (movedTy n s) := by
  rw [pastCapacity_iff, movedTy_eq]
  obtain ⟨h2, hb, e⟩ | ⟨-, hb, d, -, e⟩ | ⟨h1, e⟩ | ⟨h2, -, e⟩ := execDy_cases n s
  · exact iff_of_true ⟨_, e⟩ ⟨h2, hb⟩
  · exact iff_of_false (by simp [e]) fun ⟨_, hpast⟩ => by simp [hb] at hpast
  · exact iff_of_false (by simp [e]) fun ⟨h2, _⟩ => by simp [h1] at h2
  · exact iff_of_false (by simp [e]) fun ⟨hblock, _⟩ => h2 hblock

/-- No 32-bit target passes the reference capacity (R57). -/
theorem not_pastCapacity_of_reference_le {s : State} (hw : 2147483647 ≤ s.params.canvasMaxW)
    (hh : 2147483647 ≤ s.params.canvasMaxH) (tx ty : Word) : ¬ pastCapacity s tx ty := by
  have hx := toInt_lt_pitch tx
  have hy := toInt_lt_pitch ty
  unfold pastCapacity
  omega

/-- Settles O12: the capacity is the only thing a DY can fail at, and no target passes the reference one. -/
theorem dyBlockFaultsExactlyPastCapacity : Obligations.DyBlockFaultsExactlyPastCapacity := by
  intro n s
  refine ⟨execDy_fault_iff n s, fun hw hh f hf => ?_⟩
  obtain ⟨-, hpast⟩ := (execDy_fault_iff n s).1 ⟨f, hf⟩
  exact not_pastCapacity_of_reference_le hw hh _ _ hpast

/-! ### The readout -/

/-- Ten digits are enough for a 32-bit bound (R58). -/
theorem decimalBytes_spec (v : Word) :
    ∃ ds : List Nat, decimalBytes v = ds.map digitByte ∧ (∀ d ∈ ds, d ≤ 9) ∧
      Nat.ofDigits 10 ds.reverse = v.toInt.toNat ∧ ds ≠ [] ∧ (ds.head? = some 0 → ds = [0]) := by
  have hv := toInt_lt_pitch v
  obtain ⟨ds, e, hspec⟩ := decimalFrom_spec 9 v.toInt.toNat [] (by omega)
  exact ⟨ds, e.trans (List.append_nil _), hspec⟩

/-- In the raster each cell of the canvas stands at its row-major place (R58). -/
theorem raster_getElem?_eq_readCell (s : State) {col row : Nat} (hb : inBounds s.w s.h col row = true) :
    (rowsFrom s 0 s.h.toInt.toNat)[row * s.w.toInt.toNat + col]? = readCell s col row := by
  obtain ⟨hcol, hrow⟩ := (inBounds_iff ..).1 hb
  rw [rowsFrom_get s 0 _ row col (by omega) (by omega), Nat.zero_add, readCell, if_pos hb]

theorem raster_length (s : State) (hw : 0 ≤ s.w.toInt) (hh : 0 ≤ s.h.toInt) :
    ((rowsFrom s 0 s.h.toInt.toNat).length : Int) = s.w.toInt * s.h.toInt := by
  rw [rowsFrom_length, Nat.cast_mul, Int.toNat_of_nonneg hw, Int.toNat_of_nonneg hh, mul_comm]

/-- Settles O52: the digits of the two bounds, then the raster's length and places. -/
theorem canvasReadoutIsTheRowMajorRaster : Obligations.CanvasReadoutIsTheRowMajorRaster := by
  intro s hw hh
  obtain ⟨dw, ew, hdw, hvw, hnw, hzw⟩ := decimalBytes_spec s.w
  obtain ⟨dh, eh, hdh, hvh, hnh, hzh⟩ := decimalBytes_spec s.h
  refine ⟨dw, dh, rowsFrom s 0 s.h.toInt.toNat, ?_, hdw, hdh, hvw, hvh, hnw, hnh, hzw, hzh, raster_length s hw hh,
    fun _ _ => raster_getElem?_eq_readCell s⟩
  rw [serialiseCanvas, rasterHeader, ew, eh]
  rfl

end Sys2Proof.Machine
end

section
/-! SUPPORT. What an invocation leaves alone (R38, R53, R60, R116): O34. -/

namespace Sys2Proof.Machine

/-- Settles O34: a stop and a fault write none of the four, and an instruction appends at most one event. -/
theorem invocationsOnlyAppendEvents : Obligations.InvocationsOnlyAppendEvents := by
  intro s t hrun h
  obtain ⟨hidle, -⟩ | ⟨-, -, e⟩ | ⟨-, -, e⟩ | ⟨-, b, -, ⟨u, hu, e⟩ | ⟨f, -, e⟩⟩ := step_cases s
  case inl => exact absurd hidle hrun
  all_goals obtain rfl := Host.Outcome.next.inj (e.symm.trans h)
  case inr.inr.inr.inl =>
    obtain ⟨hprogram, hbuffer, hparams, -⟩ := exec_sameOutside hu
    exact ⟨hprogram, hbuffer, hparams, exec_events (t := u) hu⟩
  all_goals exact ⟨rfl, rfl, rfl, [], (List.append_nil _).symm, Nat.zero_le 1⟩

end Sys2Proof.Machine
end

section
/-! SUPPORT. The code of instructions and of whole streams (R80 to R88, R95, R123): decoding and encoding (O1, O2), the
opcode table's rows (O3) and the TOOL bytes (O19). -/

namespace Sys2Proof

/-! ### Streams -/

/-- The per-instruction family, for every instruction. -/
theorem roundTrip (i : Instr) : Laws.RoundTrip.Statement i := by
  cases i with
  | dx s => exact Laws.RoundTrip.dx s
  | dy s => exact Laws.RoundTrip.dy s
  | toolNone => exact Laws.RoundTrip.toolNone
  | toolLine => exact Laws.RoundTrip.toolLine
  | toolBlock => exact Laws.RoundTrip.toolBlock
  | toolColour => exact Laws.RoundTrip.toolColour
  | toolTargetX => exact Laws.RoundTrip.toolTargetX
  | toolTargetY => exact Laws.RoundTrip.toolTargetY
  | toolShow => exact Laws.RoundTrip.toolShow
  | toolPause => exact Laws.RoundTrip.toolPause
  | toolNextFrame => exact Laws.RoundTrip.toolNextFrame
  | tool9 => exact Laws.RoundTrip.tool9
  | toolRaw10 t => exact Laws.RoundTrip.toolRaw10 t
  | toolRaw12 t => exact Laws.RoundTrip.toolRaw12 t
  | toolRaw16 t => exact Laws.RoundTrip.toolRaw16 t
  | toolRaw32 t => exact Laws.RoundTrip.toolRaw32 t
  | data g => exact Laws.RoundTrip.data g

theorem decode_encode {i : Instr} (hi : i.wf = true) : decode (encode i) = i := (roundTrip i hi).2

theorem decodeAll_encodeAll {is : List Instr} (h : ∀ i ∈ is, i.wf = true) : decodeAll (encodeAll is) = is := by
  induction is with
  | nil => rfl
  | cons i rest ih =>
    obtain ⟨hi, hrest⟩ := List.forall_mem_cons.1 h
    rw [encodeAll_cons, decodeAll_cons, decode_encode hi, ih hrest]

theorem encodeAll_decodeAll (bytes : List Byte) : encodeAll (decodeAll bytes) = bytes := by
  induction bytes with
  | nil => rfl
  | cons b rest ih => rw [decodeAll_cons, encodeAll_cons, encode_of_decode, ih]

theorem decodeAll_wf (bytes : List Byte) : ∀ i ∈ decodeAll bytes, i.wf = true := by
  induction bytes with
  | nil => exact List.forall_mem_nil _
  | cons b rest ih => exact List.forall_mem_cons.2 ⟨decode_wf b, ih⟩

/-- Settles O1, by induction on the stream in each direction. -/
theorem streamsDecodeToWhatTheyEncode : Obligations.StreamsDecodeToWhatTheyEncode :=
  ⟨fun _ => decodeAll_encodeAll, fun bytes => ⟨encodeAll_decodeAll bytes, decodeAll_wf bytes⟩⟩

/-- Settles O2, by evaluating the decoder on the eight bytes. -/
theorem wordsOfEachFamilyDecode : Obligations.WordsOfEachFamilyDecode := by
  unfold Obligations.WordsOfEachFamilyDecode
  decide

/-! ### The opcode table's rows -/

/-- The byte `b` has the fixed bits of row `r`. -/
def OpcodeRow.Matches (r : OpcodeRow) (b : Byte) : Prop := b &&& r.mask = r.pattern

/-- Every byte has the fixed bits of the row it decodes to. -/
theorem matches_opcodeRow_decode (b : Byte) : (opcodeRow (decode b)).Matches b := by
  obtain ⟨hfixed, -⟩ := roundTrip (decode b) (decode_wf b)
  rwa [encode_of_decode] at hfixed

/-- The 17 rows of spec/opcode_table.json, in its order. -/
def opcodeRows : List OpcodeRow :=
  [⟨0x00, 0xC0⟩, ⟨0x40, 0xC0⟩, ⟨0x80, 0xFF⟩, ⟨0x81, 0xFF⟩, ⟨0x82, 0xFF⟩, ⟨0x83, 0xFF⟩, ⟨0x84, 0xFF⟩, ⟨0x85, 0xFF⟩,
    ⟨0x86, 0xFF⟩, ⟨0x87, 0xFF⟩, ⟨0x88, 0xFF⟩, ⟨0x89, 0xFF⟩, ⟨0x8A, 0xFE⟩, ⟨0x8C, 0xFC⟩, ⟨0x90, 0xF0⟩, ⟨0xA0, 0xE0⟩,
    ⟨0xC0, 0xC0⟩]

theorem opcodeRow_mem_opcodeRows (i : Instr) : opcodeRow i ∈ opcodeRows := by
  cases i <;> simp [opcodeRow, opcodeRows]

/-- Two different rows disagree on a bit that both fix. -/
theorem opcodeRows_disjoint :
    ∀ r ∈ opcodeRows, ∀ q ∈ opcodeRows, r.pattern &&& q.mask = q.pattern &&& r.mask → r = q := by decide

/-- A byte has the fixed bits of one row only. -/
theorem OpcodeRow.Matches.unique {r q : OpcodeRow} {b : Byte} (hr : r ∈ opcodeRows) (hq : q ∈ opcodeRows)
    (hrb : r.Matches b) (hqb : q.Matches b) : r = q := by
  refine opcodeRows_disjoint r hr q hq ?_
  rw [← show b &&& r.mask = r.pattern from hrb, ← show b &&& q.mask = q.pattern from hqb]
  ac_rfl

/-- Settles O3: the decoder's row matches, and no other row does. -/
theorem opcodeRowsPartitionTheBytes : Obligations.OpcodeRowsPartitionTheBytes := by
  intro b i
  constructor
  · exact (matches_opcodeRow_decode b).unique (opcodeRow_mem_opcodeRows _) (opcodeRow_mem_opcodeRows i)
  · intro e
    rw [← e]
    exact matches_opcodeRow_decode b

end Sys2Proof

namespace Sys2Proof.Machine

/-! ### TOOL bytes -/

/-- The directive codes are 3 to 8, and every other code is the instruction's own (R84). -/
theorem decodeTool_kind (u : U6) :
    isDirective (decodeTool u) = decide (3 ≤ u.toNat ∧ u.toNat ≤ 8) ∧
      toolCode (decodeTool u) = if 3 ≤ u.toNat ∧ u.toNat ≤ 8 then none else some u := by
  revert u
  decide

/-- Every TOOL, directive or code, completes and clears `data` (R140). -/
theorem exec_tool_clears_data {i : Instr} (hi : isDirective i = true ∨ (toolCode i).isSome = true) (s : State) :
    ∃ t, exec i s = .next t ∧ t.data = 0 := by
  cases i with
  | dx n | dy n | data g => simp [isDirective, toolCode] at hi
  | _ => exact ⟨_, rfl, rfl⟩

/-- Settles O19: a TOOL clears `data`, and writes `tool` the code it has, if any. -/
theorem everyToolByteClearsData : Obligations.EveryToolByteClearsData := by
  intro u s
  obtain ⟨hdirective, hcode⟩ := decodeTool_kind u
  have hbyte : decode (assembleByte 0b10 u) = decodeTool u := decode_assembleByte 0b10 u
  have htool : isDirective (decodeTool u) = true ∨ (toolCode (decodeTool u)).isSome = true := by
    rw [hdirective, hcode]
    split <;> simp [*]
  obtain ⟨t, ht, hdata⟩ := exec_tool_clears_data htool s
  refine ⟨t, by rw [hbyte, ht], hdata, ?_⟩
  rw [exec_tool ht, hcode]
  split <;> rfl

end Sys2Proof.Machine
end

section
/-! SUPPORT. The assembler (R90 to R95): lines of one instruction (O55) and the pseudo-instructions (O56). -/

namespace Sys2Proof.Machine

/-! ### Operands -/

theorem within_iff (lo hi n : Int) : within lo hi n = true ↔ lo ≤ n ∧ n ≤ hi := by
  simp [within]

theorem within_eq_false_iff (lo hi n : Int) : within lo hi n = false ↔ n < lo ∨ hi < n := by
  rw [← Bool.not_eq_true, within_iff]
  omega

theorem checked_of_true {ok : Bool} (h : ok = true) (bytes : List Byte) : checked ok bytes = .ok bytes := if_pos h

theorem checked_of_false {ok : Bool} (h : ok = false) (bytes : List Byte) : checked ok bytes = .error .operandRange :=
  if_neg (by simp [h])

theorem ofInt_setWidth_six (n : Int) : (BitVec.ofInt 8 n).setWidth 6 = BitVec.ofInt 6 n := by
  rw [← BitVec.toNat_inj, BitVec.toNat_setWidth, BitVec.toNat_ofInt, BitVec.toNat_ofInt]
  omega

/-- The assembler's byte is the opcode and the low six bits of the operand (R80, R90). -/
theorem asmByte_eq_assembleByte (op : BitVec 2) (n : Int) :
    asmByte (op.setWidth 8) n = assembleByte op (BitVec.ofInt 6 n) := by
  have fields : ∀ (op : BitVec 2) (b : Byte),
      (op.setWidth 8 <<< 6) ||| (b &&& 63) = assembleByte op (b.setWidth 6) := by decide
  rw [← ofInt_setWidth_six, ← fields]
  rfl

theorem s6_ofInt {n : Int} (hlo : -32 ≤ n) (hhi : n ≤ 31) : s6 (BitVec.ofInt 6 n) = n := by
  rw [← sext32_toInt, sext32, BitVec.toInt_signExtend_of_le (by decide)]
  exact BitVec.toInt_ofInt_eq_self (by decide) hlo (by omega)

theorem toNat_ofInt_six {n : Int} (hlo : 0 ≤ n) (hhi : n ≤ 63) : ((BitVec.ofInt 6 n).toNat : Int) = n := by
  rw [BitVec.toNat_ofInt]
  omega

/-! ### Lines of one instruction -/

/-- A one-byte line with its operand in range. -/
theorem checked_asmByte {ok : Bool} (h : ok = true) (op : BitVec 2) (n : Int) :
    checked ok [asmByte (op.setWidth 8) n] = .ok [assembleByte op (BitVec.ofInt 6 n)] := by
  rw [checked_of_true h, asmByte_eq_assembleByte]

/-- Settles O55: the operand's six bits read back as the operand, and the range check decides the rest. -/
theorem assembledLineIsItsInstruction : Obligations.AssembledLineIsItsInstruction := by
  refine ⟨fun n => ⟨fun hlo hhi => ?_, fun hout => ?_⟩, fun n => ⟨fun hlo hhi => ?_, fun hout => ?_⟩⟩
  · have hin := (within_iff (-32) 31 n).2 ⟨hlo, hhi⟩
    exact ⟨BitVec.ofInt 6 n, s6_ofInt hlo hhi, checked_asmByte hin 0b00 n, checked_asmByte hin 0b01 n⟩
  · have hrange := (within_eq_false_iff (-32) 31 n).2 hout
    exact ⟨checked_of_false hrange _, checked_of_false hrange _⟩
  · have hin := (within_iff 0 63 n).2 ⟨hlo, hhi⟩
    exact ⟨BitVec.ofInt 6 n, toNat_ofInt_six hlo hhi, checked_asmByte hin 0b10 n, checked_asmByte hin 0b11 n⟩
  · have hrange := (within_eq_false_iff 0 63 n).2 hout
    exact ⟨checked_of_false hrange _, checked_of_false hrange _⟩

/-! ### Pseudo-instructions -/

/-- A file of lines that assemble is the concatenation of their bytes (R95). -/
theorem assembleLines_of_forall₂ {lines : List AsmLine} {bytes : List (List Byte)}
    (h : List.Forall₂ (fun l b => assembleLine l = .ok b) lines bytes) : assembleLines lines = .ok bytes.flatten := by
  induction h with
  | nil => rfl
  | cons hline _ ih => simp only [assembleLines, hline, ih, List.flatten_cons]

/-- A value load and a committing TOOL are the two lines of R92. -/
theorem assembleLines_load_commit {v t : Int} {c : Commit} (hv : isU32 v = true)
    (ht : assembleLine (.tool t) = .ok [commitByte c]) :
    assembleLines [.load v, .tool t] = .ok (encodeLoadCommit (BitVec.ofInt 32 v) c) := by
  have hload : assembleLine (.load v) = .ok (encodeValue (BitVec.ofInt 32 v)) := checked_of_true hv _
  rw [assembleLines_of_forall₂ (.cons hload (.cons ht .nil)), encodeLoadCommit]
  simp

theorem isU32_toNat (w : Word) : isU32 (w.toNat : Int) = true := by
  refine (within_iff ..).2 ⟨Int.natCast_nonneg _, ?_⟩
  have := w.isLt
  omega

/-- The bits of a signed operand are a `u32` value load (R92). -/
theorem assembleLines_load_bits_commit (w : Word) {t : Int} {c : Commit}
    (ht : assembleLine (.tool t) = .ok [commitByte c]) :
    assembleLines [.load (w.toNat : Int), .tool t] = .ok (encodeLoadCommit w c) := by
  rw [assembleLines_load_commit (isU32_toNat w) ht, BitVec.ofInt_natCast, BitVec.ofNat_toNat, BitVec.setWidth_eq]

/-- RECT is its nine lines (R93). -/
theorem assembleLine_rect {c x1 y1 x2 y2 : Int} (hlo : 0 ≤ c) (hhi : c ≤ 255) (hx1 : isI32 x1 = true)
    (hy1 : isI32 y1 = true) (hx2 : isI32 x2 = true) (hy2 : isI32 y2 = true) :
    assembleLine (.rect c x1 y1 x2 y2) =
      assembleLines [.tool 0, .setColour c, .setTX x1, .setTY y1, .dy 0, .setTX x2, .setTY y2, .tool 2, .dy 0] := by
  have hc : within 0 255 c = true := (within_iff ..).2 ⟨hlo, hhi⟩
  have hcolour : isU32 c = true := (within_iff ..).2 ⟨hlo, by omega⟩
  have hnone : assembleLine (.tool 0) = .ok [0x80] := rfl
  have hblock : assembleLine (.tool 2) = .ok [0x82] := rfl
  have hdy : assembleLine (.dy 0) = .ok [0x40] := rfl
  have hset : assembleLine (.setColour c) = .ok (encodeLoadCommit (BitVec.ofInt 32 c) .colour) :=
    checked_of_true hcolour _
  have hsetX {x : Int} (hx : isI32 x = true) :
      assembleLine (.setTX x) = .ok (encodeLoadCommit (BitVec.ofInt 32 x) .targetX) := checked_of_true hx _
  have hsetY {y : Int} (hy : isI32 y = true) :
      assembleLine (.setTY y) = .ok (encodeLoadCommit (BitVec.ofInt 32 y) .targetY) := checked_of_true hy _
  rw [assembleLine, checked_of_true (by simp [hc, hx1, hy1, hx2, hy2]),
    assembleLines_of_forall₂ (.cons hnone (.cons hset (.cons (hsetX hx1) (.cons (hsetY hy1) (.cons hdy
      (.cons (hsetX hx2) (.cons (hsetY hy2) (.cons hblock (.cons hdy .nil)))))))))]
  simp [rectangleBytes]

/-- Settles O56, each pseudo-instruction by the bytes of its lines. -/
theorem pseudoInstructionsExpand : Obligations.PseudoInstructionsExpand := by
  refine ⟨fun v hlo hhi => ?_, fun v hlo hhi => ?_, fun _ _ _ _ _ => assembleLine_rect, fun d hlo hhi => ?_⟩
  · have hv : isU32 v = true := (within_iff ..).2 ⟨hlo, hhi⟩
    exact ⟨checked_of_true hv _, (checked_of_true hv _).trans (assembleLines_load_commit hv rfl).symm,
      (checked_of_true hv _).trans (assembleLines_load_commit hv rfl).symm⟩
  · have hv : isI32 v = true := (within_iff ..).2 ⟨hlo, hhi⟩
    exact ⟨(checked_of_true hv _).trans (assembleLines_load_bits_commit _ rfl).symm,
      (checked_of_true hv _).trans (assembleLines_load_bits_commit _ rfl).symm⟩
  · have hd : within (-32) 31 d = true := (within_iff ..).2 ⟨hlo, hhi⟩
    have hdx : assembleLine (.dx d) = .ok [asmByte 0 d] := checked_of_true hd _
    have hdy : assembleLine (.dy 0) = .ok [asmByte 1 0] := rfl
    exact (checked_of_true hd _).trans (assembleLines_of_forall₂ (.cons hdx (.cons hdy .nil))).symm

end Sys2Proof.Machine
end

section
/-! SUPPORT. Byte sequences run on any state, and a full-stream decode as the run of its program (R113, R172). -/

namespace Sys2Proof.Machine

/-- A run that goes through starts with an instruction that answers a next state. -/
theorem runBytes_cons_inv {b : Byte} {rest : List Byte} {s t : State} (h : runBytes (b :: rest) s = .next t) :
    ∃ u, exec (decode b) s = .next u ∧ runBytes rest (advancePc u) = .next t := by
  rw [runBytes] at h
  split at h
  next u hu => exact ⟨u, hu, h⟩
  next => cases h
  next => cases h

/-- Each byte of a run moves `pc` on by 1 (R31, R124). -/
theorem runBytes_pc {bytes : List Byte} {s t : State} (h : runBytes bytes s = .next t) :
    t.pc = s.pc + BitVec.ofNat 32 bytes.length := by
  induction bytes generalizing s with
  | nil => cases h; simp
  | cons b rest ih =>
    obtain ⟨u, hu, hrest⟩ := runBytes_cons_inv h
    rw [ih hrest, advancePc_pc, exec_pc hu, List.length_cons, Nat.add_comm]
    exact pc_add s.pc 1 rest.length

/-- While a full-stream decode has bytes left, its moves run them one by one. -/
theorem core_run_of_runBytes {bytes : List Byte} {s t : State} (hfull : s.run = .full)
    (hlen : s.program.length ≤ Config.progMaxLen) (hleft : s.program.drop s.pc.toNat = bytes)
    (h : runBytes bytes s = .next t) :
    Sys2Proof.core.run bytes.length s = .next t ∧ t.run = .full ∧ t.program = s.program ∧
      t.pc.toNat = s.pc.toNat + bytes.length := by
  induction bytes generalizing s with
  | nil => cases h; exact ⟨rfl, hfull, rfl, rfl⟩
  | cons b rest ih =>
    obtain ⟨u, hu, hrest⟩ := runBytes_cons_inv h
    obtain ⟨hprogram, -, -, hrun, -⟩ := exec_sameOutside hu
    have hb : fetch s = some b := by
      rw [fetch, ← List.head?_drop, hleft, List.head?_cons]
    have hpc : s.pc.toNat < s.program.length := (fetch_some_iff s).1 ⟨b, hb⟩
    have hpc' : (advancePc u).pc.toNat = s.pc.toNat + 1 := by
      rw [advancePc_pc, exec_pc hu, pc_succ hpc hlen]
    have hstep : step s = .next (advancePc u) := by
      rw [step_enabled (by simp [stepEnabled, hfull, hpc]) hb, stepByte_next hu]
    have hleft' : (advancePc u).program.drop (advancePc u).pc.toNat = rest := by
      rw [advancePc_program, hprogram, hpc', ← List.tail_drop, hleft, List.tail_cons]
    obtain ⟨hcore, ht, htprogram, htpc⟩ := ih (s := advancePc u) (hrun.trans hfull)
      (by rwa [advancePc_program, hprogram]) hleft' hrest
    refine ⟨(core_succ_next hstep).trans hcore, ht, htprogram.trans hprogram, ?_⟩
    rw [htpc, hpc', List.length_cons]
    omega

/-- A full-stream decode whose program runs through stops after one move for each byte and one for the stop (R172). -/
theorem core_run_program {s t : State} (hfull : s.run = .full) (hpc : s.pc = 0)
    (hlen : s.program.length ≤ Config.progMaxLen) (h : runBytes s.program s = .next t) :
    Sys2Proof.core.run (s.program.length + 1) s = .next (stopFull t) := by
  obtain ⟨hcore, ht, htprogram, htpc⟩ := core_run_of_runBytes hfull hlen (by simp [hpc]) h
  have hend : t.program.length ≤ t.pc.toNat := by
    rw [htprogram, htpc]
    exact Nat.le_add_left ..
  rw [core_add hcore, core_succ_next (step_full_end ht hend)]
  rfl

end Sys2Proof.Machine
end

section
/-! SUPPORT. Value loads (R101, R102, R160, R162): what a run of DATA leaves, what an encoded value leaves (O22) and how long
it is (O23). -/

namespace Sys2Proof.Machine

theorem exec_encode_data (g : U6) (s : State) :
    exec (decode (encode (.data g))) s = .next { s with data := BitVec.ofNat 32 (s.data.toNat * 64 + g.toNat) } := by
  rw [decode_encode rfl, ← shift_or_fragment]
  rfl

/-- A run of DATA bytes, most significant first, shifts its base-64 number into the accumulator. -/
theorem runBytes_data (gs : List U6) (s : State) :
    runBytes (gs.map (fun g => encode (.data g))) s = .next { s with
      data := BitVec.ofNat 32
        (s.data.toNat * 64 ^ gs.length + Nat.ofDigits 64 (gs.map (fun g => g.toNat)).reverse)
      pc := s.pc + BitVec.ofNat 32 gs.length } := by
  induction gs generalizing s with
  | nil => simp [runBytes]
  | cons g rest ih =>
    have hdata : BitVec.ofNat 32 ((BitVec.ofNat 32 (s.data.toNat * 64 + g.toNat)).toNat * 64 ^ rest.length +
          Nat.ofDigits 64 (rest.map (fun g => g.toNat)).reverse) =
        BitVec.ofNat 32 (s.data.toNat * 64 ^ (g :: rest).length +
          Nat.ofDigits 64 ((g :: rest).map (fun g => g.toNat)).reverse) := by
      simp only [List.map_cons, List.reverse_cons, Nat.ofDigits_append, Nat.ofDigits_singleton, List.length_reverse,
        List.length_map, List.length_cons, BitVec.ofNat_add, BitVec.ofNat_mul, BitVec.ofNat_toNat, BitVec.setWidth_eq,
        pow_succ]
      ring
    have hpc : s.pc + 1 + BitVec.ofNat 32 rest.length = s.pc + BitVec.ofNat 32 (g :: rest).length := by
      rw [List.length_cons, Nat.add_comm]
      exact pc_add s.pc 1 rest.length
    rw [List.map_cons, runBytes_next (exec_encode_data g s), ih, ← hdata, ← hpc]
    rfl

/-- Settles O22: the bytes are DATA, and their base-64 number is the value. -/
theorem encodedValueLoadsExactly : Obligations.EncodedValueLoadsExactly := by
  intro v s hd
  obtain ⟨-, hv, -⟩ := firstGroup_spec v
  rw [encodeValue_length, encodeValue, groupsDown_eq, runBytes_data, groups_value, Nat.mod_eq_of_lt hv, groups_length, hd]
  simp

/-- A value below `64 ^ k` needs no more than `k` groups. -/
theorem valueLength_le {v : Word} {k : Nat} (hk : 1 ≤ k) (hv : v.toNat < 64 ^ k) : valueLength v ≤ k := by
  obtain ⟨-, -, hge⟩ := firstGroup_spec v
  rw [valueLength_eq]
  by_contra hlt
  have hpow := (hge (by omega)).trans_lt hv
  rw [Nat.pow_lt_pow_iff_right (by decide)] at hpow
  omega

/-- Settles O23, by the group that `EncodeValue` sends first. -/
theorem encodedValueLengthIsMinimal : Obligations.EncodedValueLengthIsMinimal := by
  intro v
  obtain ⟨hle, hlt, hge⟩ := firstGroup_spec v
  rw [encodeValue_length, valueLength_eq]
  exact ⟨rfl, Nat.le_add_left .., Nat.succ_le_succ hle, hlt, fun h => hge (Nat.lt_of_succ_lt_succ h)⟩

end Sys2Proof.Machine
end

section
/-! SUPPORT. The bytes of the encoder (R103 to R107, R110 to R114): single instructions (O24), a Rectangle's steps (O25) and
length (O26), and a list (O27). -/

namespace Sys2Proof.Machine

/-! ### Single instructions -/

/-- An opcode in the top bits and a 6-bit operand below it are the byte of R80. -/
theorem opcode_or_operand (op : BitVec 2) (u : U6) : (op.setWidth 8 <<< 6) ||| u.setWidth 8 = assembleByte op u := by
  revert op u
  decide

theorem assembleByte_toNat (op : BitVec 2) (u : U6) : (assembleByte op u).toNat = 64 * op.toNat + u.toNat := by
  revert op u
  decide

theorem ofNat_eight_of_le {n : Nat} (h : n ≤ 63) : BitVec.ofNat 8 n = (BitVec.ofNat 6 n).setWidth 8 := by
  rw [← BitVec.toNat_inj, BitVec.toNat_setWidth, BitVec.toNat_ofNat, BitVec.toNat_ofNat]
  omega

/-- The masked operand of R105 and R106 is the low six bits. -/
theorem and_63_setWidth (d : Word) : (d &&& 63).setWidth 8 = (BitVec.ofInt 6 d.toInt).setWidth 8 := by
  have h63 : (63 : Word).toNat = 2 ^ 6 - 1 := rfl
  rw [← BitVec.toNat_inj, BitVec.toNat_setWidth, BitVec.toNat_setWidth, BitVec.toNat_and, h63, Nat.and_two_pow_sub_one_eq_mod,
    BitVec.toNat_ofInt, BitVec.toInt_eq_toNat_cond]
  split <;> omega

theorem encodeData_of_le {g : Nat} (h : g ≤ 63) : encodeData g = .ok (assembleByte 0b11 (BitVec.ofNat 6 g)) := by
  rw [encodeData, if_pos h, ofNat_eight_of_le h, ← opcode_or_operand]
  rfl

theorem encodeTool_of_le {t : Nat} (h : t ≤ 63) : encodeTool t = .ok (assembleByte 0b10 (BitVec.ofNat 6 t)) := by
  rw [encodeTool, if_pos h, ofNat_eight_of_le h, ← opcode_or_operand]
  rfl

theorem encodeDX_of_range {d : Word} (h : -32 ≤ d.toInt ∧ d.toInt ≤ 31) :
    encodeDX d = .ok (assembleByte 0b00 (BitVec.ofInt 6 d.toInt)) := by
  rw [encodeDX, if_pos h, and_63_setWidth, ← opcode_or_operand]
  rfl

theorem encodeDY_of_range {d : Word} (h : -32 ≤ d.toInt ∧ d.toInt ≤ 31) :
    encodeDY d = .ok (assembleByte 0b01 (BitVec.ofInt 6 d.toInt)) := by
  rw [encodeDY, if_pos h, and_63_setWidth, ← opcode_or_operand]
  rfl

/-- Settles O24: in range the byte is the opcode and the operand's six bits, and the range check decides the rest. -/
theorem singleEncodersRefuseOutOfRange : Obligations.SingleEncodersRefuseOutOfRange := by
  refine ⟨fun g => ⟨fun hout => ?_, fun hin => ?_⟩, fun t => ⟨fun hout => ?_, fun hin => ?_⟩,
    fun d => ⟨fun hout => ?_, fun hlo hhi => ?_⟩⟩
  · exact if_neg (by omega)
  · refine ⟨_, encodeData_of_le hin, ?_, decode_assembleByte ..⟩
    rw [assembleByte_toNat, BitVec.toNat_ofNat, Nat.mod_eq_of_lt (by omega)]
    rfl
  · exact if_neg (by omega)
  · refine ⟨_, encodeTool_of_le hin, ?_, decode_assembleByte ..⟩
    rw [assembleByte_toNat, BitVec.toNat_ofNat, Nat.mod_eq_of_lt (by omega)]
    rfl
  · exact ⟨if_neg (by omega), if_neg (by omega)⟩
  · refine ⟨_, _, _, encodeDX_of_range ⟨hlo, hhi⟩, decode_assembleByte .., encodeDY_of_range ⟨hlo, hhi⟩,
      decode_assembleByte .., s6_ofInt hlo hhi, ?_⟩
    have hbits : ((BitVec.ofInt 6 d.toInt).toNat : Int) = d.toInt % 64 := by
      rw [BitVec.toNat_ofInt]
      omega
    rw [assembleByte_toNat, assembleByte_toNat, Nat.cast_add, Nat.cast_add, hbits]
    exact ⟨zero_add _, rfl⟩

/-! ### Rectangles -/

theorem encodeRectangle_of_colour {r : Rect} (hlo : 0 ≤ r.colour) (hhi : r.colour ≤ 255) :
    encodeRectangle r = .ok (rectangleBytes (BitVec.ofInt 32 r.colour) r.x1 r.y1 r.x2 r.y2) :=
  if_pos ⟨hlo, hhi⟩

theorem encodeRectangle_inv {r : Rect} {bytes : List Byte} (h : encodeRectangle r = .ok bytes) :
    0 ≤ r.colour ∧ r.colour ≤ 255 ∧ bytes = rectangleBytes (BitVec.ofInt 32 r.colour) r.x1 r.y1 r.x2 r.y2 := by
  unfold encodeRectangle at h
  split at h
  next hc =>
    obtain ⟨hlo, hhi⟩ := hc
    exact ⟨hlo, hhi, (Except.ok.inj h).symm⟩
  next => cases h

/-- The instruction of a committing directive (R107, R148). -/
def commitInstr : Commit → Instr
  | .colour => .toolColour
  | .targetX => .toolTargetX
  | .targetY => .toolTargetY
  | .pause => .toolPause

theorem decode_commitByte (c : Commit) : decode (commitByte c) = commitInstr c := by
  cases c <;> decide

theorem decodeAll_encodeLoadCommit (v : Word) (c : Commit) :
    decodeAll (encodeLoadCommit v c) = decodeAll (encodeValue v) ++ [commitInstr c] := by
  rw [encodeLoadCommit, decodeAll_append, decodeAll_cons, decode_commitByte, decodeAll_nil]

/-- Settles O25: the nine steps of R110, each decoded. -/
theorem rectangleBytesAreTheNineSteps : Obligations.RectangleBytesAreTheNineSteps := by
  refine fun r => ⟨fun hout => if_neg (by omega), fun hlo hhi => ⟨_, encodeRectangle_of_colour hlo hhi, ?_⟩⟩
  have hnone : decode 0x80 = .toolNone := rfl
  have hdy : decode 0x40 = .dy 0 := rfl
  have hblock : decode 0x82 = .toolBlock := rfl
  simp only [rectangleBytes, decodeAll_append, decodeAll_encodeLoadCommit, decodeAll_cons, decodeAll_nil, hnone, hdy,
    hblock, commitInstr, List.append_assoc]

/-- A colour 0..255 is loaded by 1 or 2 bytes. -/
theorem valueLength_colour {c : Int} (hlo : 0 ≤ c) (hhi : c ≤ 255) : valueLength (BitVec.ofInt 32 c) ≤ 2 := by
  refine valueLength_le (by decide) ?_
  rw [BitVec.toNat_ofInt]
  omega

/-- Settles O26: the bytes of R110 are counted, a colour load has 1 or 2 and a corner load 1 to 6. -/
theorem encodedRectangleLength : Obligations.EncodedRectangleLength := by
  intro r bytes h
  obtain ⟨hlo, hhi, rfl⟩ := encodeRectangle_inv h
  have hlength : (rectangleBytes (BitVec.ofInt 32 r.colour) r.x1 r.y1 r.x2 r.y2).length =
      9 + valueLength (BitVec.ofInt 32 r.colour) + valueLength r.x1 + valueLength r.y1
      + valueLength r.x2 + valueLength r.y2 := by
    simp only [rectangleBytes, List.length_append, List.length_singleton,
      encodeLoadCommit_length, encodeValue_length, valueLength_eq]
    omega
  have hload (v : Word) : 1 ≤ valueLength v ∧ valueLength v ≤ 6 := by
    obtain ⟨-, hmin, hmax, -⟩ := encodedValueLengthIsMinimal v
    exact ⟨hmin, hmax⟩
  have hc := hload (BitVec.ofInt 32 r.colour)
  have hc2 := valueLength_colour hlo hhi
  have hx1 := hload r.x1
  have hy1 := hload r.y1
  have hx2 := hload r.x2
  have hy2 := hload r.y2
  omega

/-! ### Lists -/

theorem encodeProgram_append_ok {a b : List Rect} {x y : List Byte} (ha : encodeProgram a = .ok x)
    (hb : encodeProgram b = .ok y) : encodeProgram (a ++ b) = .ok (x ++ y) := by
  induction a generalizing x with
  | nil => cases ha; exact hb
  | cons r rest ih =>
    obtain ⟨x₁, x₂, hr, hrest, rfl⟩ := encodeProgram_cons_inv ha
    rw [List.append_assoc]
    exact encodeProgram_cons_ok hr (ih hrest)

theorem encodeProgram_singleton (r : Rect) : encodeProgram [r] = encodeRectangle r := by
  rw [encodeProgram]
  cases encodeRectangle r with
  | error e => rfl
  | ok bytes => simp [encodeProgram]

/-- A list is refused at its first refused Rectangle (R114). -/
theorem encodeProgram_cons_error_iff (r : Rect) (rest : List Rect) :
    encodeProgram (r :: rest) = .error .operandRange ↔
      encodeRectangle r = .error .operandRange ∨ encodeProgram rest = .error .operandRange := by
  rw [encodeProgram]
  cases hr : encodeRectangle r with
  | error e => simp [encodeRectangle_error hr]
  | ok bytes => cases encodeProgram rest <;> simp

theorem encodeProgram_error_iff (rects : List Rect) :
    encodeProgram rects = .error .operandRange ↔ ∃ r ∈ rects, encodeRectangle r = .error .operandRange := by
  induction rects with
  | nil => simp [encodeProgram]
  | cons r rest ih => rw [encodeProgram_cons_error_iff, ih, List.exists_mem_cons_iff]

/-- Settles O27, clause by clause. -/
theorem programBytesConcatenateRectangles : Obligations.ProgramBytesConcatenateRectangles :=
  ⟨rfl, fun _ _ _ _ => encodeProgram_append_ok, encodeProgram_singleton, encodeProgram_error_iff⟩

end Sys2Proof.Machine
end

section
/-! SUPPORT. What an encoded Rectangle does on any state (R107, R110, R113): O28. -/

namespace Sys2Proof.Machine

/-! ### Loads and commits -/

/-- What a commit makes of a state whose accumulator holds `v` (R144 to R146, R148), `data` aside. -/
def commitValue (v : Word) : Commit → State → State
  | .colour, s => emit (.setColour v) { s with colour := v }
  | .targetX, s => { s with tx := v }
  | .targetY, s => { s with ty := v }
  | .pause, s => emit (.delay v) s

theorem exec_commitByte (c : Commit) (s : State) :
    exec (decode (commitByte c)) s = .next (clearData (commitValue s.data c s)) := by
  rw [decode_commitByte]
  cases c <;> rfl

/-- `s` after the bytes of a value load and its commit. -/
def loadCommitted (v : Word) (c : Commit) (s : State) : State :=
  clearData (commitValue v c { s with pc := s.pc + BitVec.ofNat 32 (encodeLoadCommit v c).length })

theorem runBytes_encodeLoadCommit (v : Word) (c : Commit) {s : State} (hd : s.data = 0) :
    runBytes (encodeLoadCommit v c) s = .next (loadCommitted v c s) := by
  have hpc : s.pc + BitVec.ofNat 32 (encodeLoadCommit v c).length =
      s.pc + BitVec.ofNat 32 (encodeValue v).length + 1 := by
    rw [encodeLoadCommit_length]
    exact (pc_add s.pc _ 1).symm
  rw [loadCommitted, hpc, encodeLoadCommit, runBytes_append (encodedValueLoadsExactly v s hd),
    runBytes_next (exec_commitByte c _)]
  cases c <;> rfl

/-! ### TOOL BLOCK and the two DY -/

theorem movedTy_zero (s : State) : movedTy 0 s = s.ty := add32_zero s.ty

theorem exec_toolBlock (s : State) : exec .toolBlock s = .next (selectTool 2 s) := rfl

/-- Under NONE a zero DY commits the position alone (R134). -/
theorem exec_dy_zero_of_none {s : State} (h0 : s.tool = 0) : exec (.dy 0) s = .next (commitPosition s) := by
  have h2 : s.tool ≠ 2 := by simp [h0]
  have h1 : s.tool ≠ 1 := by simp [h0]
  refine (execDy_of_tool_ne_block 0 h2).trans ?_
  rw [← movedTy_eq, movedTy_zero, if_neg h1]

/-- Under BLOCK, within the capacity, a DY fills the box of its old position and its moved target (R132). -/
theorem exec_dy_of_block {n : U6} {s : State} (h2 : s.tool = 2) (hcap : ¬ pastCapacity s s.tx (movedTy n s)) :
    ∃ t, exec (.dy n) s = .next t ∧
      t = { s with
        ty := movedTy n s, x := s.tx, y := movedTy n s
        w := smax s.w s.tx, h := smax s.h (movedTy n s)
        canvas := t.canvas
        events := s.events ++
          [.drawFilledRect s.x s.y (sub32 s.tx s.x) (sub32 (movedTy n s) s.y) s.colour] } ∧
      ∀ col row, readCell t col row = drawnCell s s.x s.y s.tx (movedTy n s) col row := by
  cases ht : exec (.dy n) s with
  | fault f =>
    obtain ⟨-, hpast⟩ := (execDy_fault_iff n s).1 ⟨f, ht⟩
    exact absurd hpast hcap
  | refused r => exact absurd ht (exec_not_refused _ _ _)
  | next t =>
    obtain ⟨e, hevents, -⟩ := execDy_next ht
    rw [hevents] at e
    refine ⟨t, rfl, ?_, fun col row => ?_⟩
    · simpa only [h2, if_true, movedTy_eq, sub32_eq] using e
    · rw [execDy_readCell ht, if_pos h2, movedTy_eq]

/-! ### The Rectangle -/

/-- The first eight steps of R110: everything before the DY that draws. -/
def rectangleSetup (c x1 y1 x2 y2 : Word) : List Byte :=
  [0x80]
    ++ encodeLoadCommit c .colour
    ++ encodeLoadCommit x1 .targetX
    ++ encodeLoadCommit y1 .targetY
    ++ [0x40]
    ++ encodeLoadCommit x2 .targetX
    ++ encodeLoadCommit y2 .targetY
    ++ [0x82]

theorem rectangleBytes_eq (c x1 y1 x2 y2 : Word) :
    rectangleBytes c x1 y1 x2 y2 = rectangleSetup c x1 y1 x2 y2 ++ [0x40] := rfl

/-- `s` about to draw a Rectangle: BLOCK, the colour, the first corner as position and the second as target. -/
def rectangleReady (c x1 y1 x2 y2 pc : Word) (s : State) : State :=
  { s with
    tool := 2, colour := c, data := 0, x := x1, y := y1, tx := x2, ty := y2, pc := pc
    events := s.events ++ [.setColour c] }

/-- The setup makes the state ready, from any state: TOOL NONE empties the accumulator for the first load. -/
theorem runBytes_rectangleSetup (c x1 y1 x2 y2 : Word) (s : State) :
    ∃ pc, runBytes (rectangleSetup c x1 y1 x2 y2) s = .next (rectangleReady c x1 y1 x2 y2 pc s) := by
  have hnone : runBytes [0x80] s = .next (advancePc (selectTool 0 s)) := rfl
  have hcolour := (runBytes_append hnone).trans (runBytes_encodeLoadCommit c .colour rfl)
  have hx1 := (runBytes_append hcolour).trans (runBytes_encodeLoadCommit x1 .targetX rfl)
  have hy1 := (runBytes_append hx1).trans (runBytes_encodeLoadCommit y1 .targetY rfl)
  have hmove := (runBytes_append hy1).trans (runBytes_next (b := 0x40) (rest := []) (exec_dy_zero_of_none rfl))
  have hx2 := (runBytes_append hmove).trans (runBytes_encodeLoadCommit x2 .targetX rfl)
  have hy2 := (runBytes_append hx2).trans (runBytes_encodeLoadCommit y2 .targetY rfl)
  have hblock := (runBytes_append hy2).trans (runBytes_next (b := 0x82) (rest := []) (exec_toolBlock _))
  simp only [loadCommitted, commitValue, emit, clearData, selectTool, advancePc, commitPosition] at hblock
  exact ⟨_, hblock⟩

/-- Settles O28: the setup makes the state ready, and the last DY draws. -/
theorem encodedRectangleDrawsItself : Obligations.EncodedRectangleDrawsItself := by
  intro r bytes s h hcap
  obtain ⟨-, -, rfl⟩ := encodeRectangle_inv h
  obtain ⟨pc, hsetup⟩ := runBytes_rectangleSetup (BitVec.ofInt 32 r.colour) r.x1 r.y1 r.x2 r.y2 s
  obtain ⟨d, hd, hframe, hcells⟩ := exec_dy_of_block (n := 0)
    (s := rectangleReady (BitVec.ofInt 32 r.colour) r.x1 r.y1 r.x2 r.y2 pc s) rfl (by rwa [movedTy_zero])
  rw [movedTy_zero] at hframe hcells
  have hrun : runBytes (rectangleBytes (BitVec.ofInt 32 r.colour) r.x1 r.y1 r.x2 r.y2) s = .next (advancePc d) := by
    rw [rectangleBytes_eq, runBytes_append hsetup]
    exact runBytes_next hd
  refine ⟨advancePc d, hrun, ?_, fun col row => ?_⟩
  · rw [← runBytes_pc hrun, hframe]
    simp [advancePc, rectangleReady]
  · have hbyte : (BitVec.ofInt 32 r.colour).setWidth 8 = BitVec.ofInt 8 r.colour := by
      rw [← BitVec.toNat_inj, BitVec.toNat_setWidth, BitVec.toNat_ofInt, BitVec.toNat_ofInt]
      omega
    rw [← hbyte]
    exact hcells col row

end Sys2Proof.Machine
end

section
/-! SUPPORT. A Rectangle list run from any state, and the round trip of a raster (R112, R117, R172): O29. -/

namespace Sys2Proof.Machine

theorem inBounds_of_readCell {s : State} {col row : Nat} {v : Byte} (h : readCell s col row = some v) :
    inBounds s.w s.h col row = true := by
  by_contra hout
  rw [readCell, if_neg hout] at h
  cases h

/-- A cell of the Rectangle is within the bounds that its draw grows (R56, R132). -/
theorem Rect.inBounds_of_covers {r : Rect} (w h : Word) {col row : Nat} (hc : r.covers col row = true) :
    inBounds (smax w r.x2) (smax h r.y2) col row = true := by
  obtain ⟨-, hcol, -, hrow⟩ := (inBox_iff ..).1 hc
  rw [inBounds_iff, smax_toInt, smax_toInt]
  omega

/-- The canvas holds no more than `W` by `H` cells, may grow to them, and shows the raster `C` in every cell that a Rectangle
of `drawn` covers. -/
structure Shows (W H : Nat) (C : Nat → Nat → Byte) (drawn : List Rect) (s : State) : Prop where
  width_le : s.w.toInt ≤ W
  height_le : s.h.toInt ≤ H
  width_capacity : W ≤ s.params.canvasMaxW
  height_capacity : H ≤ s.params.canvasMaxH
  cells : ∀ r ∈ drawn, ∀ col row, r.covers col row = true → readCell s col row = some (C col row)

section
variable {W H : Nat} {C : Nat → Nat → Byte}

/-- One more Rectangle: the cells it covers take the colour of the raster, and the other cells drawn before stay. -/
theorem Shows.rectangle {drawn : List Rect} {s : State} (hs : Shows W H C drawn s) {r : Rect} {bytes : List Byte}
    (hr : encodeRectangle r = .ok bytes) (hwithin : r.within W H)
    (hsame : ∀ col row, r.covers col row = true → C col row = BitVec.ofInt 8 r.colour) :
    ∃ t, runBytes bytes s = .next t ∧ Shows W H C (drawn ++ [r]) t := by
  obtain ⟨-, hx2, -, hy2⟩ := hwithin
  have hwcap := hs.width_capacity
  have hhcap := hs.height_capacity
  have hcap : ¬ pastCapacity s r.x2 r.y2 := by
    unfold pastCapacity
    omega
  obtain ⟨t, hrun, ht, hread⟩ := encodedRectangleDrawsItself r bytes s hr hcap
  refine ⟨t, hrun, ?_, ?_, ?_, ?_, fun q hq col row hc => ?_⟩
  · rw [ht, smax_toInt]
    exact max_le hs.width_le hx2
  · rw [ht, smax_toInt]
    exact max_le hs.height_le hy2
  · rwa [ht]
  · rwa [ht]
  · by_cases hrc : r.covers col row = true
    · rw [hread, if_pos (r.inBounds_of_covers s.w s.h hrc), if_pos hrc, hsame col row hrc]
    · obtain hq | rfl := (List.mem_append.1 hq).imp_right List.mem_singleton.1
      · have hold := hs.cells q hq col row hc
        have hin := inBounds_of_readCell hold
        rw [hread, if_pos (inBounds_smax r.x2 r.y2 hin), if_neg hrc, if_pos hin, hold]
      · exact absurd hc hrc

/-- A whole list, by induction on it. -/
theorem Shows.program {drawn rects : List Rect} {s : State} (hs : Shows W H C drawn s) {bytes : List Byte}
    (henc : encodeProgram rects = .ok bytes) (hwithin : ∀ r ∈ rects, r.within W H)
    (hsame : ∀ r ∈ rects, ∀ col row, r.covers col row = true → C col row = BitVec.ofInt 8 r.colour) :
    ∃ t, runBytes bytes s = .next t ∧ Shows W H C (drawn ++ rects) t := by
  induction rects generalizing drawn s bytes with
  | nil =>
    cases henc
    exact ⟨s, rfl, by rwa [List.append_nil]⟩
  | cons r rest ih =>
    obtain ⟨x, y, hr, hrest, rfl⟩ := encodeProgram_cons_inv henc
    obtain ⟨hrw, hrestw⟩ := List.forall_mem_cons.1 hwithin
    obtain ⟨hrs, hrests⟩ := List.forall_mem_cons.1 hsame
    obtain ⟨u, hu, hshows⟩ := hs.rectangle hr hrw hrs
    obtain ⟨t, ht, hall⟩ := ih hshows hrest hrestw hrests
    refine ⟨t, (runBytes_append hu).trans ht, ?_⟩
    rwa [List.append_assoc] at hall

/-- Rectangles that cover the raster leave exactly it: its last column and row are drawn, so the bounds reach `W` and `H`. -/
theorem Shows.raster {rects : List Rect} {t : State} (ht : Shows W H C rects t) (hW : 1 ≤ W) (hH : 1 ≤ H)
    (hcovered : ∀ col row, col < W → row < H → ∃ r ∈ rects, r.covers col row = true) :
    t.w.toInt = W ∧ t.h.toInt = H ∧
      ∀ col row, readCell t col row = if col < W ∧ row < H then some (C col row) else none := by
  have hcell {col row : Nat} (hcol : col < W) (hrow : row < H) : readCell t col row = some (C col row) := by
    obtain ⟨r, hr, hc⟩ := hcovered col row hcol hrow
    exact ht.cells r hr col row hc
  have hcorner := inBounds_of_readCell (hcell (col := W - 1) (row := H - 1) (by omega) (by omega))
  obtain ⟨hw, hh⟩ := (inBounds_iff ..).1 hcorner
  have hwle := ht.width_le
  have hhle := ht.height_le
  refine ⟨by omega, by omega, fun col row => ?_⟩
  split
  next hin =>
    obtain ⟨hcol, hrow⟩ := hin
    exact hcell hcol hrow
  next hout => exact if_neg fun hb => hout (by rw [inBounds_iff] at hb; omega)

end

/-- The start of a full-stream decode leaves a canvas without cells (R171). -/
theorem shows_startFull {W H : Nat} (C : Nat → Nat → Byte) {s : State} (hW : W ≤ s.params.canvasMaxW)
    (hH : H ≤ s.params.canvasMaxH) : Shows W H C [] (startFull s) where
  width_le := Int.natCast_nonneg W
  height_le := Int.natCast_nonneg H
  width_capacity := hW
  height_capacity := hH
  cells := fun _ hr => absurd hr List.not_mem_nil

/-- Settles O29: the program runs through and shows the whole raster, and the stop changes no cell. -/
theorem decodeOfEncodedRasterIsTheRaster : Obligations.DecodeOfEncodedRasterIsTheRaster := by
  rintro rects W H C bytes s hW hH hpart henc hlen hWcap hHcap rfl
  obtain ⟨t, hrun, hshows⟩ := (shows_startFull C hWcap hHcap).program henc hpart.within hpart.same
  obtain ⟨hw, hh, hcells⟩ := hshows.raster hW hH hpart.covered
  exact ⟨stopFull t, core_run_program (s := startFull s) rfl rfl hlen hrun, ⟨rfl, rfl⟩, hw, hh, hcells⟩

end Sys2Proof.Machine
end

section
/-! SUPPORT. The decoder's operands (R121, R122): O4; and the step it drives (R124, R125, R201): O30. -/

namespace Sys2Proof.Machine

/-! ### Operands -/

/-- The moves read their six bits as signed (R121). -/
theorem sext32_ofInt_toInt {v : Int} (hlo : -32 ≤ v) (hhi : v ≤ 31) : (sext32 (BitVec.ofInt 6 v)).toInt = v := by
  rw [sext32_toInt, s6_ofInt hlo hhi]

/-- TOOL and DATA read theirs as unsigned (R122). -/
theorem zext32_ofNat_toNat {u : Nat} (hu : u ≤ 63) : (zext32 (BitVec.ofNat 6 u)).toNat = u := by
  rw [zext32_toNat, BitVec.toNat_ofNat, Nat.mod_eq_of_lt (Nat.lt_succ_of_le hu)]

/-- A TOOL byte in range is a directive or selects its own code (R84, R122). -/
theorem decode_toolByte {u : Nat} (hu : u ≤ 63) :
    if 3 ≤ u ∧ u ≤ 8 then isDirective (decode (assembleByte 0b10 (BitVec.ofNat 6 u))) = true
    else toolCode (decode (assembleByte 0b10 (BitVec.ofNat 6 u))) = some (BitVec.ofNat 6 u) := by
  have hbyte : decode (assembleByte 0b10 (BitVec.ofNat 6 u)) = decodeTool (BitVec.ofNat 6 u) :=
    decode_assembleByte 0b10 _
  obtain ⟨hdirective, hcode⟩ := decodeTool_kind (BitVec.ofNat 6 u)
  rw [← zext32_toNat, zext32_ofNat_toNat hu] at hdirective hcode
  rw [hbyte, hdirective, hcode]
  split
  next hdir => exact decide_eq_true hdir
  next => rfl

/-- Settles O4: each byte's operand field is the six bits it was built from, and reads back as their value. -/
theorem operandsSignedForMovesOnly : Obligations.OperandsSignedForMovesOnly := by
  refine ⟨fun v hlo hhi => ?_, ?_, fun u hu => ?_, fun u hu => ?_⟩
  · exact ⟨_, _, decode_assembleByte 0b00 _, sext32_ofInt_toInt hlo hhi, decode_assembleByte 0b01 _,
      sext32_ofInt_toInt hlo hhi⟩
  · exact ⟨_, _, decode_assembleByte 0b00 _, sext32_toInt _, decode_assembleByte 0b01 _, sext32_toInt _⟩
  · exact ⟨_, decode_assembleByte 0b11 _, zext32_ofNat_toNat hu⟩
  · have htool := decode_toolByte hu
    split at htool
    next hdir => rwa [if_pos hdir]
    next hsel =>
      rw [if_neg hsel]
      exact ⟨_, htool, zext32_ofNat_toNat hu⟩

/-! ### The enabled step -/

/-- The step's last action counts from the offset the instruction was fetched at (R31, R124). -/
theorem advancePc_of_exec {i : Instr} {s t : State} (h : exec i s = .next t) :
    advancePc t = { t with pc := s.pc + 1 } := by
  rw [advancePc, exec_pc h]

/-- Settles O30: an enabled step is the fetched byte's, and the instruction's outcome decides it. -/
theorem stepRunsTheDecodedInstruction : Obligations.StepRunsTheDecodedInstruction := by
  intro s b henabled hb
  have hstep : step s = stepByte b s := step_enabled henabled hb
  refine ⟨fun t ht => ?_, fun f hf => ?_, exec_not_refused _ s⟩
  · rw [hstep, stepByte_next ht, advancePc_of_exec ht]
  · rw [hstep, stepByte_fault hf, endFaulted]

end Sys2Proof.Machine
end

section
/-! SUPPORT. The motion instructions (R130 to R134): DX in O5, a DY that completes in O6, and DY's three draws: none in O7, a
line in O8, a filled box in O9 and O10. -/

namespace Sys2Proof.Machine

theorem exec_dx (n : U6) (s : State) : exec (.dx n) s = .next { s with tx := add32 s.tx (s6 n) } := by
  rw [add32_eq]
  rfl

/-- Settles O5: the opcode decides the byte, and DX is one addition. -/
theorem dxAddsSignedOperandToTx : Obligations.DxAddsSignedOperandToTx :=
  ⟨decode_assembleByte 0b00, exec_dx⟩

/-- Settles O6, by the fields of the state a DY ends in. -/
theorem dyAlwaysCommitsTheTarget : Obligations.DyAlwaysCommitsTheTarget := by
  intro n s t h
  obtain ⟨e, -, -⟩ := execDy_next h
  rw [e, movedTy_eq]
  exact ⟨rfl, rfl, rfl, rfl⟩

/-- Settles O7: with nothing drawn, the move and the commit are the whole effect. -/
theorem dyWithoutDrawingToolOnlyCommits : Obligations.DyWithoutDrawingToolOnlyCommits := by
  refine ⟨decode_assembleByte 0b01, fun n s h1 h2 => ?_⟩
  refine (execDy_of_tool_ne_block n h2).trans ?_
  rw [if_neg h1, movedTy_eq]
  rfl

/-- Settles O8: the line's event stands between the move and the commit. -/
theorem dyLineEmitsOneLine : Obligations.DyLineEmitsOneLine := by
  intro n s h1
  have h2 : s.tool ≠ 2 := by simp [h1]
  refine (execDy_of_tool_ne_block n h2).trans ?_
  rw [if_pos h1, movedTy_eq]
  rfl

/-- Past the capacity the fault records the DY's offset and its target (R201). -/
theorem exec_dy_pastCapacity {n : U6} {s : State} (h2 : s.tool = 2) (hpast : pastCapacity s s.tx (movedTy n s)) :
    exec (.dy n) s = .fault (.canvasCapacity s.pc s.tx (movedTy n s)) := by
  obtain ⟨f, hf : exec (.dy n) s = .fault f⟩ := (execDy_fault_iff n s).2 ⟨h2, hpast⟩
  obtain ⟨_, ⟨⟩, -, -, rfl⟩ := exec_fault hf
  rwa [movedTy_eq]

/-- Settles O9, on the two sides of the capacity. -/
theorem dyBlockFillsTheBox : Obligations.DyBlockFillsTheBox :=
  fun _ _ h2 => ⟨exec_dy_of_block h2, exec_dy_pastCapacity h2⟩

/-- A box of zero area or with its corners reversed holds no cell (R132). -/
theorem not_inBox_of_empty {x y tx ty : Word} (hempty : tx.toInt ≤ x.toInt ∨ ty.toInt ≤ y.toInt) (col row : Nat) :
    ¬ inBox x y tx ty col row = true := by
  rw [inBox_iff]
  omega

/-- Settles O10: every old cell is outside an empty box. -/
theorem emptyBoxDrawsNoCell : Obligations.EmptyBoxDrawsNoCell := by
  intro n s t _ h hempty col row hold
  exact execDy_readCell_old h hold fun ⟨_, hin⟩ => not_inBox_of_empty hempty col row hin

end Sys2Proof.Machine
end

section
/-! SUPPORT. The TOOL instructions (R141 to R151): selection of a tool code in O13, and the directives COLOUR (O14), TARGETX
and TARGETY (O15), SHOW (O16), PAUSE (O17) and NEXTFRAME (O18). -/

namespace Sys2Proof.Machine

/-! ### Selection -/

/-- Every instruction with a tool code selects that code, whichever row it is of (R140, "otherwise"). -/
theorem exec_of_toolCode {i : Instr} {c : U6} (h : toolCode i = some c) (s : State) :
    exec i s = .next { s with tool := c, data := 0 } := by
  cases i with
  | toolNone | toolLine | toolBlock | tool9 | toolRaw10 | toolRaw12 | toolRaw16 | toolRaw32 => cases h; rfl
  | _ => cases h

/-- A code above the directives' is the code of its own byte (R83, R84). -/
theorem toolCode_decode_rawByte {t : U6} (ht : 10 ≤ t.toNat) : toolCode (decode (assembleByte 0b10 t)) = some t := by
  have hbyte : decode (assembleByte 0b10 t) = decodeTool t := decode_assembleByte 0b10 t
  obtain ⟨-, hcode⟩ := decodeTool_kind t
  rw [hbyte, hcode, if_neg (by omega)]

/-- Settles O13: each byte is the code of its instruction, and each of these instructions has its tool code. -/
theorem toolCodesSelectTheTool : Obligations.ToolCodesSelectTheTool := by
  refine ⟨⟨by decide, by decide, by decide, by decide, fun _ => toolCode_decode_rawByte⟩, fun s => ?_⟩
  refine ⟨exec_of_toolCode rfl s, exec_of_toolCode rfl s, exec_of_toolCode rfl s, exec_of_toolCode rfl s, fun t => ?_⟩
  exact ⟨exec_of_toolCode rfl s, exec_of_toolCode rfl s, exec_of_toolCode rfl s, exec_of_toolCode rfl s⟩

/-! ### Directives -/

theorem exec_toolColour (s : State) :
    exec .toolColour s = .next { s with colour := s.data, data := 0, events := s.events ++ [.setColour s.data] } := rfl

theorem exec_toolTargetX (s : State) : exec .toolTargetX s = .next { s with tx := s.data, data := 0 } := rfl

theorem exec_toolTargetY (s : State) : exec .toolTargetY s = .next { s with ty := s.data, data := 0 } := rfl

theorem exec_toolShow (s : State) :
    exec .toolShow s = .next { s with data := 0, events := s.events ++ [.showCanvas] } := rfl

theorem exec_toolPause (s : State) :
    exec .toolPause s = .next { s with data := 0, events := s.events ++ [.delay s.data] } := rfl

theorem exec_toolNextFrame (s : State) :
    exec .toolNextFrame s = .next { s with frameStart := s.pc + 1, frameEnded := true, data := 0 } := rfl

/-- Settles O14: the byte is COLOUR's code, and the event carries the value that `data` held before it was cleared. -/
theorem toolColourCommitsAccumulator : Obligations.ToolColourCommitsAccumulator :=
  ⟨by decide, exec_toolColour⟩

/-- Settles O15: the target takes the accumulator's 32 bits, whose signed reading is `i32(data)`. -/
theorem toolTargetsLoadSignedAccumulator : Obligations.ToolTargetsLoadSignedAccumulator := by
  refine ⟨by decide, by decide, fun s => ?_⟩
  have hsigned : s.data.toInt = i32 s.data := toInt_eq_i32 s.data
  exact ⟨⟨s.data, hsigned, exec_toolTargetX s⟩, ⟨s.data, hsigned, exec_toolTargetY s⟩⟩

/-- Settles O16: the byte is SHOW's code, and its event reads no register. -/
theorem toolShowEmitsShow : Obligations.ToolShowEmitsShow :=
  ⟨by decide, exec_toolShow⟩

/-- Settles O17: the byte is PAUSE's code, and its event carries `data` whatever it holds. -/
theorem toolPauseEmitsDelay : Obligations.ToolPauseEmitsDelay :=
  ⟨by decide, exec_toolPause⟩

/-- Settles O18: the byte is NEXTFRAME's code, and `pc` is still its offset when it is recorded (R124). -/
theorem toolNextFrameRecordsNextOffset : Obligations.ToolNextFrameRecordsNextOffset :=
  ⟨by decide, exec_toolNextFrame⟩

end Sys2Proof.Machine
end

section
/-! SUPPORT. The DATA instruction and its runs (R160 to R162): one fragment (O20) and a list of them (O21). -/

namespace Sys2Proof.Machine

/-- Settles O20: the shift leaves six zero bits, so the fragment's OR is a sum (R160, R161). -/
theorem dataShiftsFragmentIn : Obligations.DataShiftsFragmentIn := by
  refine ⟨decode_assembleByte 0b11, fun g s => ?_⟩
  rw [← shift_or_fragment]
  rfl

/-- Settles O21, by the induction on the fragments that a value load (O22) rests on too. -/
theorem dataRunAssemblesValue : Obligations.DataRunAssemblesValue :=
  runBytes_data

end Sys2Proof.Machine
end

section
/-! SUPPORT. Run control (R171 to R180): the starts (O38, O39), one turn of each loop (O40, O41), a whole full-stream decode
(O42), a frame that ends at a NEXTFRAME (O43), an empty frame (O44) and termination (O45). -/

namespace Sys2Proof.Machine

/-! ### The starts -/

/-- Settles O38: the start is defined as R171's list of assignments, with the outcome cleared. -/
theorem startFullZeroesEverything : Obligations.StartFullZeroesEverything :=
  fun _ => ⟨none, rfl⟩

/-- Settles O39: the entry offset keeps its value in 32 bits, since a program is shorter than 2^32 bytes. -/
theorem startFrameKeepsCursorAndCanvas : Obligations.StartFrameKeepsCursorAndCanvas :=
  fun s hlen => ⟨_, frameEntry s, none, rfl, rfl, frameEntry_toNat hlen⟩

/-! ### One turn of a loop -/

/-- Where a full-stream decode has a step to take (R125, R172): the frame flag does not matter. -/
theorem stepEnabled_full {s : State} (hfull : s.run = .full) :
    stepEnabled s = true ↔ s.pc.toNat < s.program.length := by
  simp [stepEnabled, hfull]

/-- Where a frame-step has a step to take (R125, R175). -/
theorem stepEnabled_frame {s : State} (hframe : s.run = .frame) :
    stepEnabled s = true ↔ s.pc.toNat < s.program.length ∧ s.frameEnded = false := by
  simp [stepEnabled, hframe]

/-- An enabled step has a byte to run, and runs it. -/
theorem step_runs_fetched {s : State} (henabled : stepEnabled s = true) (hpc : s.pc.toNat < s.program.length) :
    ∃ b, s.program[s.pc.toNat]? = some b ∧ stepEnabled s = true ∧ step s = stepByte b s := by
  obtain ⟨b, hb⟩ := (fetch_some_iff s).2 hpc
  exact ⟨b, hb, henabled, step_enabled henabled hb⟩

/-- The stop of a frame that a NEXTFRAME ended keeps the cursor (R176). -/
theorem stopFrame_of_frameEnded {s : State} (hended : s.frameEnded = true) :
    stopFrame s = { s with run := .idle, outcome := some .normal } := by
  rw [stopFrame, if_pos hended]

/-- The stop of a frame at the end of the stream wraps the cursor (R176). -/
theorem stopFrame_of_not_frameEnded {s : State} (hgoing : s.frameEnded = false) :
    stopFrame s = { s with frameStart := 0, run := .idle, outcome := some .normal } := by
  rw [stopFrame, hgoing]
  rfl

/-- Settles O40: the stop at the end of the stream, and the fetched byte before it. -/
theorem fullDecodeStopsOnlyAtEndOfStream : Obligations.FullDecodeStopsOnlyAtEndOfStream := by
  intro s hfull
  exact ⟨step_full_end hfull, fun hpc => step_runs_fetched ((stepEnabled_full hfull).2 hpc) hpc⟩

/-- Settles O41: the two stops of a frame-step, and the fetched byte before them. -/
theorem frameStepStopsAndWraps : Obligations.FrameStepStopsAndWraps := by
  intro s hframe
  refine ⟨fun hended => ?_, fun hgoing hend => ?_, fun hgoing hpc => ?_⟩
  · rw [step_frame_end hframe (.inl hended), stopFrame_of_frameEnded hended]
  · rw [step_frame_end hframe (.inr hend), stopFrame_of_not_frameEnded hgoing]
  · exact step_runs_fetched ((stepEnabled_frame hframe).2 ⟨hpc, hgoing⟩) hpc

/-! ### A full-stream decode -/

/-- Settles O42: the moves run the program's bytes one by one, and the last leaves `pc` at the end of the stream. -/
theorem fullDecodeRunsEveryByteOnce : Obligations.FullDecodeRunsEveryByteOnce := by
  intro s t hfull hpc hlen hrun
  obtain ⟨hcore, htfull, htprogram, htpc⟩ := core_run_of_runBytes hfull hlen (by simp [hpc]) hrun
  have hend : t.pc.toNat = s.program.length := by simpa [hpc] using htpc
  exact ⟨hcore, htfull, hend, step_full_end htfull (by rw [htprogram, hend])⟩

/-! ### A frame that ends at a NEXTFRAME -/

/-- Only the byte 0x88 is a NEXTFRAME (R83). -/
theorem decode_ne_toolNextFrame {b : Byte} (hb : b ≠ 0x88) : decode b ≠ .toolNextFrame := by
  intro h
  have hcode : encode (decode b) = 0x88 := by rw [h]; rfl
  exact hb ((encode_of_decode b).symm.trans hcode)

/-- One byte of a frame that goes on: the move runs it, and the bytes after it lie ahead (R124, R175). -/
theorem step_frame_byte {b : Byte} {rest : List Byte} {s u : State} (hframe : s.run = .frame)
    (hgoing : s.frameEnded = false) (hlen : s.program.length ≤ Config.progMaxLen)
    (hahead : s.program.drop s.pc.toNat = b :: rest) (hu : exec (decode b) s = .next u) :
    step s = .next (advancePc u) ∧ u.run = .frame ∧ u.program = s.program ∧
      (advancePc u).pc.toNat = s.pc.toNat + 1 ∧ s.program.drop (s.pc.toNat + 1) = rest := by
  obtain ⟨hprogram, -, -, hrun, -⟩ := exec_sameOutside hu
  have hb : fetch s = some b := by rw [fetch, ← List.head?_drop, hahead, List.head?_cons]
  have hpc : s.pc.toNat < s.program.length := (fetch_some_iff s).1 ⟨b, hb⟩
  refine ⟨?_, hrun.trans hframe, hprogram, ?_, ?_⟩
  · rw [step_enabled ((stepEnabled_frame hframe).2 ⟨hpc, hgoing⟩) hb, stepByte_next hu]
  · rw [advancePc_pc, exec_pc hu, pc_succ hpc hlen]
  · rw [← List.tail_drop, hahead, List.tail_cons]

/-- From a frame with the bytes of `before` and then a NEXTFRAME ahead, the moves run exactly these bytes, and the NEXTFRAME
ends the frame with the cursor after it (R149, R175). -/
theorem core_run_to_nextFrame {before after : List Byte} {s t : State} (hframe : s.run = .frame)
    (hgoing : s.frameEnded = false) (hlen : s.program.length ≤ Config.progMaxLen)
    (hahead : s.program.drop s.pc.toNat = before ++ 0x88 :: after) (hfirst : 0x88 ∉ before)
    (h : runBytes (before ++ [0x88]) s = .next t) :
    Sys2Proof.core.run (before.length + 1) s = .next t ∧ t.run = .frame ∧ t.frameEnded = true ∧
      t.frameStart = t.pc ∧ t.pc.toNat = s.pc.toNat + before.length + 1 := by
  induction before generalizing s with
  | nil =>
    obtain ⟨u, hu, hrest⟩ := runBytes_cons_inv h
    obtain ⟨hstep, hrun, -, hpc, -⟩ := step_frame_byte hframe hgoing hlen hahead hu
    obtain rfl := Host.Outcome.next.inj hrest
    have hnext : exec (decode 0x88) s = _ := exec_toolNextFrame s
    obtain rfl := Host.Outcome.next.inj (hnext.symm.trans hu)
    exact ⟨core_succ_next hstep, hrun, rfl, rfl, hpc⟩
  | cons b rest ih =>
    obtain ⟨hb, hfirst'⟩ := not_or.1 (List.mem_cons.not.1 hfirst)
    obtain ⟨u, hu, hrest⟩ := runBytes_cons_inv h
    obtain ⟨hstep, hrun, hprogram, hpc, hahead'⟩ := step_frame_byte hframe hgoing hlen hahead hu
    obtain ⟨-, hflag⟩ := exec_sameFrame hu (decode_ne_toolNextFrame (Ne.symm hb))
    obtain ⟨hcore, htrun, htended, htstart, htpc⟩ := ih (s := advancePc u) hrun (hflag.trans hgoing)
      (by rwa [advancePc_program, hprogram]) (by rwa [advancePc_program, hprogram, hpc]) hfirst' hrest
    refine ⟨(core_succ_next hstep).trans hcore, htrun, htended, htstart, ?_⟩
    rw [htpc, hpc, List.length_cons]
    omega

/-- The bytes from offset `p` on, cut at the byte at offset `n`. -/
theorem drop_eq_cut {l : List Byte} {b : Byte} {p n : Nat} (hp : p ≤ n) (hn : l[n]? = some b) :
    l.drop p = (l.take n).drop p ++ b :: l.drop (n + 1) ∧ (l.take (n + 1)).drop p = (l.take n).drop p ++ [b] := by
  obtain ⟨hlt, rfl⟩ := List.getElem?_eq_some_iff.1 hn
  have hlen : p ≤ (l.take n).length := by rw [List.length_take]; omega
  constructor
  · rw [← List.drop_eq_getElem_cons hlt, ← List.drop_append_of_le_length hlen, List.take_append_drop]
  · rw [List.take_succ_eq_append_getElem hlt, List.drop_append_of_le_length hlen]

/-- Settles O43: the moves up to the first NEXTFRAME, and then the stop that keeps its cursor. -/
theorem frameStepRunsToTheNextFrameByte : Obligations.FrameStepRunsToTheNextFrameByte := by
  intro s t n hs hframe hgoing hpn hn hnone hrun
  obtain ⟨hahead, hcut⟩ := drop_eq_cut hpn hn
  have hnlt : n < s.program.length := (List.getElem?_eq_some_iff.1 hn).1
  have hlength : ((s.program.take n).drop s.pc.toNat).length = n - s.pc.toNat := by
    rw [List.length_drop, List.length_take, Nat.min_eq_left hnlt.le]
  have hfirst : 0x88 ∉ (s.program.take n).drop s.pc.toNat := by
    intro hmem
    obtain ⟨j, hj, hbyte⟩ := List.getElem_of_mem hmem
    rw [hlength] at hj
    refine hnone (s.pc.toNat + j) (by omega) (by omega) (List.getElem?_eq_some_iff.2 ⟨by omega, ?_⟩)
    rwa [List.getElem_drop, List.getElem_take] at hbyte
  rw [hcut] at hrun
  obtain ⟨hcore, htrun, htended, htstart, htpc⟩ :=
    core_run_to_nextFrame hframe hgoing hs.program_length hahead hfirst hrun
  rw [hlength] at hcore htpc
  have hmoves : n + 2 - s.pc.toNat = (n - s.pc.toNat + 1) + 1 := by omega
  have htn : t.pc.toNat = n + 1 := by omega
  refine ⟨?_, by rw [htstart, htn], htn, htended⟩
  rw [hmoves, core_add hcore, core_succ_next (step_frame_end htrun (.inl htended)), stopFrame_of_frameEnded htended]
  rfl

/-! ### An empty frame -/

theorem startFrame_pc_of_past {s : State} (hpast : s.program.length ≤ s.frameStart.toNat)
    (hlen : s.program.length ≤ Config.progMaxLen) : (startFrame s).pc.toNat = s.program.length :=
  (frameEntry_toNat hlen).trans (Nat.min_eq_right hpast)

/-- Settles O44: the start clamps `pc` to the end of the stream, where the next move stops the frame and wraps (R177). -/
theorem frameStartedPastTheEndIsEmpty : Obligations.FrameStartedPastTheEndIsEmpty := by
  intro s rest hidle hcommand hpast hlen
  have hstart : step s = .next (startFrame { s with commands := rest }) := step_command hidle hcommand
  have hpc := startFrame_pc_of_past (s := { s with commands := rest }) hpast hlen
  have hstop := step_frame_end (s := startFrame { s with commands := rest }) rfl (.inr hpc.ge)
  exact ⟨_, (core_succ_next hstart).trans (core_succ_next hstop), ⟨rfl, rfl⟩, rfl, hpc,
    ⟨rfl, rfl, fun _ _ => rfl⟩, rfl, rfl⟩

/-! ### Termination -/

/-- An invocation is over, by its stop condition or by the fault of code 1 (R173, R201). -/
def InvocationOver (s : State) : Prop :=
  s.run = .idle ∧ (s.outcome = some .normal ∨ ∃ pc tx ty, s.outcome = some (.faulted 1 pc tx ty))

/-- A move within an invocation ends it, normally or with the fault of code 1, or runs one of the bytes left and goes on. -/
theorem step_ends_or_goes_on {s : State} (hrun : s.run ≠ .idle) :
    ∃ u, step s = .next u ∧
      (InvocationOver u ∨
        u.run ≠ .idle ∧ u.program = s.program ∧ s.pc.toNat < s.program.length ∧ u.pc = s.pc + 1) := by
  obtain ⟨hidle, -⟩ | ⟨-, -, e⟩ | ⟨-, -, e⟩ | ⟨-, b, hb, ⟨u, hu, e⟩ | ⟨⟨pc, tx, ty⟩, -, e⟩⟩ := step_cases s
  case inl => exact absurd hidle hrun
  all_goals refine ⟨_, e, ?_⟩
  case inr.inl | inr.inr.inl => exact .inl ⟨rfl, .inl rfl⟩
  case inr.inr.inr.inl =>
    obtain ⟨hprogram, -, -, hu_run, -⟩ := exec_sameOutside hu
    exact .inr ⟨fun h => hrun (hu_run.symm.trans h), hprogram, (fetch_some_iff s).1 ⟨b, hb⟩,
      by rw [advancePc_pc, exec_pc hu]⟩
  case inr.inr.inr.inr => exact .inl ⟨rfl, .inr ⟨pc, tx, ty, rfl⟩⟩

/-- Each move that does not end the invocation leaves one byte fewer, so the bytes left bound the moves (R179). -/
theorem invocation_stops {s : State} (hlen : s.program.length ≤ Config.progMaxLen) (hrun : s.run ≠ .idle) :
    ∃ k t, k ≤ s.program.length - s.pc.toNat + 1 ∧ Sys2Proof.core.run k s = .next t ∧ InvocationOver t := by
  obtain ⟨u, hu, hover | ⟨hgoing, hprogram, hpc, hpc'⟩⟩ := step_ends_or_goes_on hrun
  · exact ⟨1, u, Nat.le_add_left .., core_succ_next hu, hover⟩
  · have hnext : u.pc.toNat = s.pc.toNat + 1 := by rw [hpc', pc_succ hpc hlen]
    obtain ⟨k, t, hk, hcore, hover⟩ := invocation_stops (s := u) (by rwa [hprogram]) hgoing
    rw [hprogram, hnext] at hk
    exact ⟨k + 1, t, by omega, (core_succ_next hu).trans hcore, hover⟩
termination_by s.program.length - s.pc.toNat
decreasing_by
  rw [hprogram, hnext]
  omega

/-- Settles O45: the invariant bounds the program's length, which is all the bound on the moves needs. -/
theorem everyInvocationStops : Obligations.EveryInvocationStops :=
  fun _ hs hrun => invocation_stops hs.program_length hrun

end Sys2Proof.Machine
end

section
/-! SUPPORT. Exceptions (R200, R201): which instructions fault, that every step answers a next state (O31), and what the
capacity fault leaves (O32). -/

namespace Sys2Proof.Machine

/-- A step answers a next state, whichever of its five kinds it is. -/
theorem step_total (s : State) : ∃ t, step s = .next t := by
  obtain ⟨-, e⟩ | ⟨-, -, e⟩ | ⟨-, -, e⟩ | ⟨-, b, -, ⟨t, -, e⟩ | ⟨f, -, e⟩⟩ := step_cases s
  all_goals exact ⟨_, e⟩

/-- The capacity fault is the only one, and its DY always raises it (R200, R201). -/
theorem exec_fault_iff (i : Instr) (s : State) :
    (∃ f, exec i s = .fault f) ↔ ∃ n, i = .dy n ∧ s.tool = 2 ∧ pastCapacity s s.tx (movedTy n s) := by
  constructor
  · rintro ⟨f, hf⟩
    obtain ⟨n, rfl, -⟩ := exec_fault hf
    exact ⟨n, rfl, (execDy_fault_iff n s).1 ⟨f, hf⟩⟩
  · rintro ⟨n, rfl, h2, hpast⟩
    exact ⟨_, exec_dy_pastCapacity h2 hpast⟩

/-- Settles O31: `step_cases` for the steps, DY's capacity for the faults, and no refusal from any instruction. -/
theorem onlyBlockDyFaultsAndNothingStops : Obligations.OnlyBlockDyFaultsAndNothingStops :=
  ⟨step_total, exec_fault_iff, exec_not_refused⟩

/-- Settles O32: the enabled step takes the fault that DY raises, and the fault's ending is R201's outcome. -/
theorem capacityFaultEndsTheInvocation : Obligations.CapacityFaultEndsTheInvocation := by
  intro s b n henabled hb hdy h2 hpast
  have hfault : exec (decode b) s = .fault (.canvasCapacity s.pc s.tx (movedTy n s)) := by
    rw [hdy, exec_dy_pastCapacity h2 hpast]
  calc step s = stepByte b s := step_enabled henabled hb
    _ = .next (endFaulted (.canvasCapacity s.pc s.tx (movedTy n s)) s) := stepByte_fault hfault

end Sys2Proof.Machine
end

section
/-! SUPPORT. The host port (R214, R215, R220): when a command is taken (O49, O54) and what the commands return (O50, O51,
O53). -/

namespace Sys2Proof.Machine

/-! ### Who moves -/

/-- Within an invocation a step leaves the host's queues alone: a stop and a fault write neither, and no instruction does
(R170, R215). -/
theorem step_keeps_queues {s t : State} (hrun : s.run ≠ .idle) (h : step s = .next t) :
    t.commands = s.commands ∧ t.replies = s.replies := by
  obtain ⟨hidle, -⟩ | ⟨-, -, e⟩ | ⟨-, -, e⟩ | ⟨-, b, -, ⟨u, hu, e⟩ | ⟨f, -, e⟩⟩ := step_cases s
  case inl => exact absurd hidle hrun
  all_goals obtain rfl := Host.Outcome.next.inj (e.symm.trans h)
  case inr.inr.inr.inl =>
    obtain ⟨-, -, -, -, -, hqueues⟩ := exec_sameOutside hu
    exact hqueues
  all_goals exact ⟨rfl, rfl⟩

/-- Settles O49: the idle machine runs the next command, and an invocation leaves the queues alone. -/
theorem hostCommandsRunOnlyBetweenInvocations : Obligations.HostCommandsRunOnlyBetweenInvocations :=
  ⟨fun _ _ _ => step_command, fun _ _ => step_keeps_queues⟩

/-- With no command pending the host's turn changes nothing (R220). -/
theorem hostTurn_of_no_command {s : State} (hnone : s.commands = []) : hostTurn s = s := by
  rw [hostTurn, hnone]

/-- Settles O54: the idle machine's move is the host's turn, which has no command to run. -/
theorem idleMachineKeepsItsState : Obligations.IdleMachineKeepsItsState := by
  intro s hidle hnone
  rw [step_idle hidle, hostTurn_of_no_command hnone]

/-! ### What the commands do -/

theorem programWf_iff (bytes : List Byte) : programWf bytes = true ↔ bytes.length ≤ Config.progMaxLen :=
  decide_eq_true_iff

theorem loadProgram_of_fits {bytes : List Byte} (hfits : bytes.length ≤ Config.progMaxLen) (s : State) :
    loadProgram bytes s = { s with program := bytes } :=
  if_pos ((programWf_iff bytes).2 hfits)

theorem loadProgram_of_tooLong {bytes : List Byte} (hlong : Config.progMaxLen < bytes.length) (s : State) :
    loadProgram bytes s = reply (.refused .programTooLong) s :=
  if_neg fun hwf => hlong.not_ge ((programWf_iff bytes).1 hwf)

/-- Settles O50, on the two sides of `PROG_MAX_LEN`. -/
theorem loadProgramReplacesProgramMemory : Obligations.LoadProgramReplacesProgramMemory :=
  fun s _ => ⟨fun hfits => loadProgram_of_fits hfits s, fun hlong => loadProgram_of_tooLong hlong s⟩

/-- Settles O51: the register file is read field by field, and each command's effect is its row of R214. -/
theorem readCommandsReturnStateAndEvents : Obligations.ReadCommandsReturnStateAndEvents :=
  fun s => ⟨⟨regFile s, rfl, rfl, rfl, rfl, rfl, rfl, rfl, rfl, rfl, rfl, rfl, rfl, rfl, rfl⟩, rfl, rfl⟩

/-- The encoder has one refusal (R114, R202). -/
theorem encodeProgram_error {rects : List Rect} {e : Refusal} (h : encodeProgram rects = .error e) :
    e = .operandRange := by
  induction rects with
  | nil => cases h
  | cons r rest ih =>
    unfold encodeProgram at h
    split at h
    next hr =>
      cases h
      exact encodeRectangle_error hr
    next =>
      split at h
      next hrest =>
        cases h
        exact ih hrest
      next => cases h

theorem encodeCommand_of_ok {rects : List Rect} {bytes : List Byte} (h : encodeProgram rects = .ok bytes) (s : State) :
    encodeCommand rects s = reply (.encoded (s.buffer ++ bytes)) { s with buffer := s.buffer ++ bytes } := by
  rw [encodeCommand, h]

theorem encodeCommand_of_error {rects : List Rect} {e : Refusal} (h : encodeProgram rects = .error e) (s : State) :
    encodeCommand rects s = reply (.refused e) s := by
  rw [encodeCommand, h]

/-- Settles O53, by the encoder's answer: the bytes, or its one refusal. -/
theorem encodeCommandAppendsToTheBuffer : Obligations.EncodeCommandAppendsToTheBuffer := by
  refine fun s rects => ⟨fun bytes hbytes => encodeCommand_of_ok hbytes s, fun e he => ?_⟩
  obtain rfl := encodeProgram_error he
  exact ⟨rfl, encodeCommand_of_error he s⟩

end Sys2Proof.Machine
end

section
/-! SUPPORT. Reset (R230, R231): the reset state has the invariant (O47), and what the host's `Reset` command leaves (O48). -/

namespace Sys2Proof.Machine

/-- Settles O47, field by field: tool 0 is no directive code, the bounds are 0 and no capacity is negative, the canvas and
the program are empty, and `pc` is bounded only while an invocation runs. -/
theorem resetMeetsTheInvariant : Obligations.ResetMeetsTheInvariant where
  tool_legal := .inl (Nat.zero_le _)
  w_nonneg := le_rfl
  h_nonneg := le_rfl
  w_capacity := Int.natCast_nonneg _
  h_capacity := Int.natCast_nonneg _
  canvas_wf := rfl
  canvas_bounds := fun _ hc => absurd hc List.not_mem_nil
  program_length := Nat.zero_le _
  frameStart_le := Nat.zero_le _
  pc_le := fun hrun => absurd rfl hrun

/-- Settles O48: the command is `powerOnReset`, whose outcome is none (log entry 5); every other field is the statement's. -/
theorem resetCommandZeroesAllButTheProgram : Obligations.ResetCommandZeroesAllButTheProgram := by
  intro s
  exact ⟨none, show powerOnReset s = _ from rfl⟩

end Sys2Proof.Machine
end
